-- ==== Sys2Proof/Word.lean ====
section
/-! DEFINITION. The word, halfword and byte of the machine (spec 00_scope.md R8, R10). -/

namespace Sys2Proof

/-- A 32-bit word: register contents, addresses, instruction words (R8, R10). -/
abbrev Word := BitVec 32

/-- A 16-bit halfword: an immediate, or the data of a halfword access (R8, R81). -/
abbrev Half := BitVec 16

/-- A byte, the addressable unit (R8). -/
abbrev Byte := BitVec 8

end Sys2Proof
end

