-- ==== Sys2Proof/Config.lean ====
section
/-! DEFINITION. The parameters the spec leaves open (00_scope.md R9) and the uninterpreted functions of a platform.

RESET_PC and INIT are the arguments of `Machine.State.launch`; the others are the plain data of `Params`. Where a
parameter of R9 is a function, `Params` names one of a closed list of choices: the spec's default, the informative
R3000A instance where the spec writes one (R295, R296), or the platform's own function, which is an opaque constant
below: nothing is known of it but its type (log 4, 5). -/

namespace Sys2Proof

/-- A range of admitted byte addresses, `base` to `base + size - 1`; MEM_MAP (R60) is a list of these. -/
structure Region where
  base : Nat
  size : Nat
  deriving DecidableEq, Repr

/-- The choices for SYSCALL_ENTRY (R38, R293, R295). -/
inductive SyscallPolicy where
  /-- The default of R38: the run halts with `UnhandledSyscall(pc)`. -/
  | unhandled
  /-- The R3000A-convention instance that R295 gives as information (log 6, PRESUMED). -/
  | r3000a
  /-- The platform's own function, `Config.syscallEntry` (log 5). -/
  | platform
  deriving DecidableEq, Repr

/-- The choices for RFE_EFFECT (R37, R294, R296). -/
inductive RfePolicy where
  /-- The default of R37: no effect. -/
  | identity
  /-- The R3000A-convention instance that R296 gives as information (log 6, PRESUMED). -/
  | r3000a
  /-- The platform's own function, `Config.rfeEffect` (log 5). -/
  | platform
  deriving DecidableEq, Repr

/-- The choices for COP_READ and for COP_WRITE (R36). -/
inductive CopPolicy where
  /-- The default of R36: plain read-write storage, the function returns its last argument. -/
  | plain
  /-- The platform's own function, `Config.copRead` or `Config.copWrite` (log 5). -/
  | platform
  deriving DecidableEq, Repr

/-- The choices for IRQ_HOOK (R298). -/
inductive IrqPolicy where
  /-- The default of R298: nothing happens between steps; in the RC no interrupt is ever taken. -/
  | none
  /-- The platform's own function, `Config.irqHook` (log 7). -/
  | platform
  deriving DecidableEq, Repr

/-- The parameters of R9 that are in force during a run. No step changes them. -/
structure Params where
  /-- MEM_MAP (R60, R35). -/
  memMap       : List Region
  /-- SYSCALL_ENTRY (R38). -/
  syscallEntry : SyscallPolicy
  /-- RFE_EFFECT (R37). -/
  rfeEffect    : RfePolicy
  /-- COP_READ (R36). -/
  copRead      : CopPolicy
  /-- COP_WRITE (R36). -/
  copWrite     : CopPolicy
  /-- IRQ_HOOK (R298). -/
  irqHook      : IrqPolicy
  /-- END_PC, none when the run has no final state (R316). -/
  endPc        : Option Word
  deriving DecidableEq, Repr

/-- The RC state record of R30 less `halt`: what a platform function sees, and what IRQ_HOOK returns.
`pending` is the `slot` of R32 when SYSCALL_ENTRY is applied (R38), and, by the model's choice, when RFE_EFFECT is
(log 19). -/
structure Snapshot where
  gpr     : Vector Word 31
  pc      : Word
  hi      : Word
  lo      : Word
  cop     : Vector (Vector Word 32) 4
  mem     : List Host.Cell
  pending : Option Word
  deriving DecidableEq, Repr, Inhabited

namespace Config

/-- COP_READ(z, r, stored) of a platform (R36); uninterpreted (log 5). -/
opaque copRead : Fin 4 → Fin 32 → Word → Word

/-- COP_WRITE(z, r, value) of a platform (R36); uninterpreted (log 5). -/
opaque copWrite : Fin 4 → Fin 32 → Word → Word

/-- SYSCALL_ENTRY of a platform (R38): the new `pc` and the new bank `cop[0]`, from the state at the start of the
step. R293 allows it to change nothing else but `pending`, which it must set to none; uninterpreted (log 5). -/
opaque syscallEntry : Snapshot → Word × Vector Word 32

/-- RFE_EFFECT of a platform (R37): the new bank `cop[0]`, the only state it may change; uninterpreted (log 5). That the
`pending` it sees is the redirect owed after the `rfe` is the model's choice (DESIGN CHOICE, log 19). -/
opaque rfeEffect : Snapshot → Vector Word 32

/-- IRQ_HOOK of a platform (R298), state to state; uninterpreted (log 5, 7). -/
opaque irqHook : Snapshot → Snapshot

end Config
end Sys2Proof
end

