-- ==== Sys2Proof/Syntax.lean ====
section
/-! DEFINITION. The 55 instructions of 30_encoding.md R88 and the zero word of R94, one constructor per row of
`opcode_table.json`, in the table's order of families. Fields that an instruction ignores (R93) are not part of it
(log 12). Arguments stand in the order of the assembler syntax of R97. -/

namespace Sys2Proof

/-- A general or coprocessor register number, a 5-bit field (R22, R81). -/
abbrev Reg := Fin 32

/-- A coprocessor id, the 2-bit field `z` (R26, R85). -/
abbrev CopId := Fin 4

/-- The four dispatch levels (R13, R110, R118). -/
inductive DispatchLevel where
  | primary
  | special
  | regimm
  | coprocessor
  deriving DecidableEq, Repr

/-- The recognised instructions. -/
inductive Instr where
  /-- The all-zero word, a no-op tested before any table (R94, R111). -/
  | zeroWord
  -- shifts (R160 to R165); the fixed amount is a count, checked to be below 32 by `Instr.wellFormed`
  | sll (rd rt : Reg) (shamt : Nat)
  | srl (rd rt : Reg) (shamt : Nat)
  | sra (rd rt : Reg) (shamt : Nat)
  | sllv (rd rt rs : Reg)
  | srlv (rd rt rs : Reg)
  | srav (rd rt rs : Reg)
  -- jumps through a register (R233, R234) and the system call (R270)
  | jr (rs : Reg)
  | jalr (rd rs : Reg)
  | syscall
  -- accumulator moves, multiply, divide (R170 to R176)
  | mfhi (rd : Reg)
  | mthi (rs : Reg)
  | mflo (rd : Reg)
  | mtlo (rs : Reg)
  | multu (rs rt : Reg)
  | div (rs rt : Reg)
  | divu (rs rt : Reg)
  -- register arithmetic and logic (R130 to R138)
  | add (rd rs rt : Reg)
  | addu (rd rs rt : Reg)
  | subu (rd rs rt : Reg)
  | and (rd rs rt : Reg)
  | or (rd rs rt : Reg)
  | xor (rd rs rt : Reg)
  | nor (rd rs rt : Reg)
  | slt (rd rs rt : Reg)
  | sltu (rd rs rt : Reg)
  -- branches against zero of the regimm table (R245, R246)
  | bltz (rs : Reg) (offset : Half)
  | bgez (rs : Reg) (offset : Half)
  -- jumps (R230, R232)
  | j (target : BitVec 26)
  | jal (target : BitVec 26)
  -- branches of the primary table (R241 to R244)
  | beq (rs rt : Reg) (offset : Half)
  | bne (rs rt : Reg) (offset : Half)
  | blez (rs : Reg) (offset : Half)
  | bgtz (rs : Reg) (offset : Half)
  -- immediate arithmetic and logic (R140 to R146)
  | addi (rt rs : Reg) (imm : Half)
  | addiu (rt rs : Reg) (imm : Half)
  | slti (rt rs : Reg) (imm : Half)
  | sltiu (rt rs : Reg) (imm : Half)
  | andi (rt rs : Reg) (imm : Half)
  | ori (rt rs : Reg) (imm : Half)
  | lui (rt : Reg) (imm : Half)
  -- loads and stores (R191 to R198) and the partial-word forms (R212 to R215)
  | lb (rt base : Reg) (offset : Half)
  | lh (rt base : Reg) (offset : Half)
  | lwl (rt base : Reg) (offset : Half)
  | lw (rt base : Reg) (offset : Half)
  | lbu (rt base : Reg) (offset : Half)
  | lhu (rt base : Reg) (offset : Half)
  | lwr (rt base : Reg) (offset : Half)
  | sb (rt base : Reg) (offset : Half)
  | sh (rt base : Reg) (offset : Half)
  | swl (rt base : Reg) (offset : Half)
  | sw (rt base : Reg) (offset : Half)
  | swr (rt base : Reg) (offset : Half)
  -- coprocessor moves: general register `rt`, register `rd` of coprocessor `z` (R260, R261); return (R262)
  | mfc (z : CopId) (rt rd : Reg)
  | mtc (z : CopId) (rt rd : Reg)
  | rfe
  deriving DecidableEq, Repr

end Sys2Proof
end

