-- ==== Sys2Proof/WellFormed.lean ====
section
/-! DEFINITION. Which terms of `Instr` are instructions. Register numbers, coprocessor ids, immediates and targets have
exactly the values of their fields by their types (R22: an out-of-range index is structurally impossible); the one
count held as a number is the fixed shift amount, which is a 5-bit field (R81, R166). -/

namespace Sys2Proof

/-- The fixed shift amount of `sll`, `srl`, `sra` is below the register width (R87, R166); no other term of `Instr`
can be ill-formed. -/
def Instr.wellFormed : Instr → Bool
  | .sll _ _ shamt | .srl _ _ shamt | .sra _ _ shamt => decide (shamt < 32)
  | .zeroWord | .sllv .. | .srlv .. | .srav .. | .jr .. | .jalr .. | .syscall | .mfhi .. | .mthi .. | .mflo ..
  | .mtlo .. | .multu .. | .div .. | .divu .. | .add .. | .addu .. | .subu .. | .and .. | .or .. | .xor .. | .nor ..
  | .slt .. | .sltu .. | .bltz .. | .bgez .. | .j .. | .jal .. | .beq .. | .bne .. | .blez .. | .bgtz .. | .addi ..
  | .addiu .. | .slti .. | .sltiu .. | .andi .. | .ori .. | .lui .. | .lb .. | .lh .. | .lwl .. | .lw .. | .lbu ..
  | .lhu .. | .lwr .. | .sb .. | .sh .. | .swl .. | .sw .. | .swr .. | .mfc .. | .mtc .. | .rfe => true

end Sys2Proof
end

