-- ==== Sys2Proof/Decode.lean ====
section
/-! DEFINITION. The fields of an instruction word (30_encoding.md R81), the byte order of words (20_memory.md R50,
R51), the dispatcher's decoding (40_dispatch.md R110 to R115, R118) and, after it, the encoder written from the same
tables (R89 to R92). Numeric selectors are the spec's, supplied by it from general knowledge (GK1; log 16). -/

namespace Sys2Proof

/-! ## Fields (R81) -/

/-- `opcode = w[31:26]`. -/
def opcodeOf (w : Word) : BitVec 6 := w.extractLsb' 26 6
/-- The bits of `rs = w[25:21]`. -/
def rsBits (w : Word) : BitVec 5 := w.extractLsb' 21 5
/-- The bits of `rt = w[20:16]`. -/
def rtBits (w : Word) : BitVec 5 := w.extractLsb' 16 5
/-- The bits of `rd = w[15:11]`. -/
def rdBits (w : Word) : BitVec 5 := w.extractLsb' 11 5
/-- `shamt = w[10:6]`. -/
def shamtBits (w : Word) : BitVec 5 := w.extractLsb' 6 5
/-- `funct = w[5:0]`. -/
def functOf (w : Word) : BitVec 6 := w.extractLsb' 0 6
/-- `immediate = w[15:0]`, also the displacement of a load or store and the offset of a branch. -/
def immOf (w : Word) : Half := w.extractLsb' 0 16
/-- `target = w[25:0]`. -/
def targetOf (w : Word) : BitVec 26 := w.extractLsb' 0 26
/-- The bits of the coprocessor id `z = w[27:26]` (R85). -/
def copIdBits (w : Word) : BitVec 2 := w.extractLsb' 26 2

/-- The register number a 5-bit field names (R22). -/
def regOfBits (f : BitVec 5) : Reg := ⟨f.toNat, f.isLt⟩

/-- The register named by `rs`. -/
def rsOf (w : Word) : Reg := regOfBits (rsBits w)
/-- The register named by `rt`. -/
def rtOf (w : Word) : Reg := regOfBits (rtBits w)
/-- The register named by `rd`. -/
def rdOf (w : Word) : Reg := regOfBits (rdBits w)
/-- The fixed shift amount, 0 to 31 (R87). -/
def shamtOf (w : Word) : Nat := (shamtBits w).toNat
/-- The coprocessor id (R85). -/
def copIdOf (w : Word) : CopId := ⟨(copIdBits w).toNat, (copIdBits w).isLt⟩

/-! ## Bytes and words (R50, R51) -/

/-- Byte `i` of a word: bits 8i+7 to 8i, the byte at address a+i of a word stored at a (R50). -/
def byteOfWord (v : Word) (i : Nat) : Byte := v.extractLsb' (8 * i) 8

/-- The four bytes of a word in the order of their addresses (R50). -/
def bytesOfWord (v : Word) : List Byte := [byteOfWord v 0, byteOfWord v 1, byteOfWord v 2, byteOfWord v 3]

/-- The two bytes of a halfword in the order of their addresses (R50). -/
def bytesOfHalf (v : Half) : List Byte := [v.extractLsb' 0 8, v.extractLsb' 8 8]

/-- `MemRead(a, 4)` from its four bytes, the byte at the lowest address first (R50). -/
def wordOfBytes (b0 b1 b2 b3 : Byte) : Word := b3 ++ b2 ++ b1 ++ b0

/-- `MemRead(a, 2)` from its two bytes, the byte at the lower address first (R50). -/
def halfOfBytes (b0 b1 : Byte) : Half := b1 ++ b0

/-! ## Decoding (R110) -/

/-- What the dispatcher makes of a word: one instruction, or the level and the selector that was not found (R118). -/
inductive Decoded where
  | instr (i : Instr)
  | unrecognized (level : DispatchLevel) (value : Nat)
  deriving DecidableEq, Repr

/-- The special level, by `funct` (R90, R113). -/
def decodeSpecial (w : Word) : Decoded :=
  match (functOf w).toNat with
  | 0x00 => .instr (.sll (rdOf w) (rtOf w) (shamtOf w))
  | 0x02 => .instr (.srl (rdOf w) (rtOf w) (shamtOf w))
  | 0x03 => .instr (.sra (rdOf w) (rtOf w) (shamtOf w))
  | 0x04 => .instr (.sllv (rdOf w) (rtOf w) (rsOf w))
  | 0x06 => .instr (.srlv (rdOf w) (rtOf w) (rsOf w))
  | 0x07 => .instr (.srav (rdOf w) (rtOf w) (rsOf w))
  | 0x08 => .instr (.jr (rsOf w))
  | 0x09 => .instr (.jalr (rdOf w) (rsOf w))
  | 0x0C => .instr .syscall
  | 0x10 => .instr (.mfhi (rdOf w))
  | 0x11 => .instr (.mthi (rsOf w))
  | 0x12 => .instr (.mflo (rdOf w))
  | 0x13 => .instr (.mtlo (rsOf w))
  | 0x19 => .instr (.multu (rsOf w) (rtOf w))
  | 0x1A => .instr (.div (rsOf w) (rtOf w))
  | 0x1B => .instr (.divu (rsOf w) (rtOf w))
  | 0x20 => .instr (.add (rdOf w) (rsOf w) (rtOf w))
  | 0x21 => .instr (.addu (rdOf w) (rsOf w) (rtOf w))
  | 0x23 => .instr (.subu (rdOf w) (rsOf w) (rtOf w))
  | 0x24 => .instr (.and (rdOf w) (rsOf w) (rtOf w))
  | 0x25 => .instr (.or (rdOf w) (rsOf w) (rtOf w))
  | 0x26 => .instr (.xor (rdOf w) (rsOf w) (rtOf w))
  | 0x27 => .instr (.nor (rdOf w) (rsOf w) (rtOf w))
  | 0x2A => .instr (.slt (rdOf w) (rsOf w) (rtOf w))
  | 0x2B => .instr (.sltu (rdOf w) (rsOf w) (rtOf w))
  | funct => .unrecognized .special funct

/-- The regimm level, by `rt` (R91, R114). -/
def decodeRegimm (w : Word) : Decoded :=
  match (rtBits w).toNat with
  | 0x00 => .instr (.bltz (rsOf w) (immOf w))
  | 0x01 => .instr (.bgez (rsOf w) (immOf w))
  | rt => .unrecognized .regimm rt

/-- The coprocessor level, by the pair (z, rs); the value reported is the 7-bit `z || rs` (R92, R115). -/
def decodeCop (w : Word) : Decoded :=
  if rsBits w = 0x00#5 then .instr (.mfc (copIdOf w) (rtOf w) (rdOf w))
  else if rsBits w = 0x04#5 then .instr (.mtc (copIdOf w) (rtOf w) (rdOf w))
  else if rsBits w = 0x10#5 ∧ copIdBits w = 0#2 then .instr .rfe
  else .unrecognized .coprocessor (copIdBits w ++ rsBits w).toNat

/-- The primary level, by `opcode` (R89, R112). -/
def decodePrimary (w : Word) : Decoded :=
  match (opcodeOf w).toNat with
  | 0x00 => decodeSpecial w
  | 0x01 => decodeRegimm w
  | 0x02 => .instr (.j (targetOf w))
  | 0x03 => .instr (.jal (targetOf w))
  | 0x04 => .instr (.beq (rsOf w) (rtOf w) (immOf w))
  | 0x05 => .instr (.bne (rsOf w) (rtOf w) (immOf w))
  | 0x06 => .instr (.blez (rsOf w) (immOf w))
  | 0x07 => .instr (.bgtz (rsOf w) (immOf w))
  | 0x08 => .instr (.addi (rtOf w) (rsOf w) (immOf w))
  | 0x09 => .instr (.addiu (rtOf w) (rsOf w) (immOf w))
  | 0x0A => .instr (.slti (rtOf w) (rsOf w) (immOf w))
  | 0x0B => .instr (.sltiu (rtOf w) (rsOf w) (immOf w))
  | 0x0C => .instr (.andi (rtOf w) (rsOf w) (immOf w))
  | 0x0D => .instr (.ori (rtOf w) (rsOf w) (immOf w))
  | 0x0F => .instr (.lui (rtOf w) (immOf w))
  | 0x10 => decodeCop w
  | 0x11 => decodeCop w
  | 0x12 => decodeCop w
  | 0x13 => decodeCop w
  | 0x20 => .instr (.lb (rtOf w) (rsOf w) (immOf w))
  | 0x21 => .instr (.lh (rtOf w) (rsOf w) (immOf w))
  | 0x22 => .instr (.lwl (rtOf w) (rsOf w) (immOf w))
  | 0x23 => .instr (.lw (rtOf w) (rsOf w) (immOf w))
  | 0x24 => .instr (.lbu (rtOf w) (rsOf w) (immOf w))
  | 0x25 => .instr (.lhu (rtOf w) (rsOf w) (immOf w))
  | 0x26 => .instr (.lwr (rtOf w) (rsOf w) (immOf w))
  | 0x28 => .instr (.sb (rtOf w) (rsOf w) (immOf w))
  | 0x29 => .instr (.sh (rtOf w) (rsOf w) (immOf w))
  | 0x2A => .instr (.swl (rtOf w) (rsOf w) (immOf w))
  | 0x2B => .instr (.sw (rtOf w) (rsOf w) (immOf w))
  | 0x2E => .instr (.swr (rtOf w) (rsOf w) (immOf w))
  | opcode => .unrecognized .primary opcode

/-- The dispatcher's decoding: the zero word first, on all 32 bits (R94, R111), then the tables (R110). -/
def decode (w : Word) : Decoded :=
  if w = 0 then .instr .zeroWord else decodePrimary w

/-- Decoding from bytes as they lie in memory, lowest address first (R51): the decoded word and the bytes after it, or
none where fewer than four bytes stand. -/
def decodeBytes : List Byte → Option (Decoded × List Byte)
  | b0 :: b1 :: b2 :: b3 :: rest => some (decode (wordOfBytes b0 b1 b2 b3), rest)
  | _ => none

/-- The instruction word of `nbits` bits of a row of `opcode_table.json`; every bit above is 0. -/
def tableWord (nbits w : Nat) : Word := BitVec.ofNat 32 (w % 2 ^ nbits)

/-- The instruction the decoder reads from a table row's word laid out in memory (R51); none where it refuses. -/
def decodeTableWord (nbits w : Nat) : Option Instr :=
  match decodeBytes (bytesOfWord (tableWord nbits w)) with
  | some (.instr i, _) => some i
  | some (.unrecognized _ _, _) => none
  | none => none

/-! ## Encoding (R82 to R85, R89 to R92) -/

/-- The 5-bit field of a register number. -/
def bitsOfReg (r : Reg) : BitVec 5 := BitVec.ofNat 5 r.val

/-- Format R (R82), opcode 0. -/
def encodeR (rs rt rd : Reg) (shamt : Nat) (funct : BitVec 6) : Word :=
  0#6 ++ bitsOfReg rs ++ bitsOfReg rt ++ bitsOfReg rd ++ BitVec.ofNat 5 shamt ++ funct

/-- Format I (R83). -/
def encodeI (opcode : BitVec 6) (rs rt : Reg) (imm : Half) : Word :=
  opcode ++ bitsOfReg rs ++ bitsOfReg rt ++ imm

/-- Format J (R84). -/
def encodeJ (opcode : BitVec 6) (target : BitVec 26) : Word := opcode ++ target

/-- Format COP (R85): `0100`, the coprocessor id, the sub-operation in `rs`, the two registers, low 11 bits. -/
def encodeCop (z : CopId) (sub : BitVec 5) (rt rd : Reg) (low : BitVec 11) : Word :=
  0b0100#4 ++ BitVec.ofNat 2 z.val ++ sub ++ bitsOfReg rt ++ bitsOfReg rd ++ low

/-- The canonical word of an instruction: ignored fields are zero, but for `rfe`, whose canonical word is 0x42000010
(R262), and for `sll $0, $0, 0`, whose ignored `rs` is 1 since the all-zero word is not `sll` (R94; log 10). -/
def encode : Instr → Word
  | .zeroWord => 0
  | .sll rd rt shamt => encodeR (if rd = 0 ∧ rt = 0 ∧ shamt = 0 then 1 else 0) rt rd shamt 0x00#6
  | .srl rd rt shamt => encodeR 0 rt rd shamt 0x02#6
  | .sra rd rt shamt => encodeR 0 rt rd shamt 0x03#6
  | .sllv rd rt rs => encodeR rs rt rd 0 0x04#6
  | .srlv rd rt rs => encodeR rs rt rd 0 0x06#6
  | .srav rd rt rs => encodeR rs rt rd 0 0x07#6
  | .jr rs => encodeR rs 0 0 0 0x08#6
  | .jalr rd rs => encodeR rs 0 rd 0 0x09#6
  | .syscall => encodeR 0 0 0 0 0x0C#6
  | .mfhi rd => encodeR 0 0 rd 0 0x10#6
  | .mthi rs => encodeR rs 0 0 0 0x11#6
  | .mflo rd => encodeR 0 0 rd 0 0x12#6
  | .mtlo rs => encodeR rs 0 0 0 0x13#6
  | .multu rs rt => encodeR rs rt 0 0 0x19#6
  | .div rs rt => encodeR rs rt 0 0 0x1A#6
  | .divu rs rt => encodeR rs rt 0 0 0x1B#6
  | .add rd rs rt => encodeR rs rt rd 0 0x20#6
  | .addu rd rs rt => encodeR rs rt rd 0 0x21#6
  | .subu rd rs rt => encodeR rs rt rd 0 0x23#6
  | .and rd rs rt => encodeR rs rt rd 0 0x24#6
  | .or rd rs rt => encodeR rs rt rd 0 0x25#6
  | .xor rd rs rt => encodeR rs rt rd 0 0x26#6
  | .nor rd rs rt => encodeR rs rt rd 0 0x27#6
  | .slt rd rs rt => encodeR rs rt rd 0 0x2A#6
  | .sltu rd rs rt => encodeR rs rt rd 0 0x2B#6
  | .bltz rs offset => encodeI 0x01#6 rs 0 offset
  | .bgez rs offset => encodeI 0x01#6 rs 1 offset
  | .j target => encodeJ 0x02#6 target
  | .jal target => encodeJ 0x03#6 target
  | .beq rs rt offset => encodeI 0x04#6 rs rt offset
  | .bne rs rt offset => encodeI 0x05#6 rs rt offset
  | .blez rs offset => encodeI 0x06#6 rs 0 offset
  | .bgtz rs offset => encodeI 0x07#6 rs 0 offset
  | .addi rt rs imm => encodeI 0x08#6 rs rt imm
  | .addiu rt rs imm => encodeI 0x09#6 rs rt imm
  | .slti rt rs imm => encodeI 0x0A#6 rs rt imm
  | .sltiu rt rs imm => encodeI 0x0B#6 rs rt imm
  | .andi rt rs imm => encodeI 0x0C#6 rs rt imm
  | .ori rt rs imm => encodeI 0x0D#6 rs rt imm
  | .lui rt imm => encodeI 0x0F#6 0 rt imm
  | .lb rt base offset => encodeI 0x20#6 base rt offset
  | .lh rt base offset => encodeI 0x21#6 base rt offset
  | .lwl rt base offset => encodeI 0x22#6 base rt offset
  | .lw rt base offset => encodeI 0x23#6 base rt offset
  | .lbu rt base offset => encodeI 0x24#6 base rt offset
  | .lhu rt base offset => encodeI 0x25#6 base rt offset
  | .lwr rt base offset => encodeI 0x26#6 base rt offset
  | .sb rt base offset => encodeI 0x28#6 base rt offset
  | .sh rt base offset => encodeI 0x29#6 base rt offset
  | .swl rt base offset => encodeI 0x2A#6 base rt offset
  | .sw rt base offset => encodeI 0x2B#6 base rt offset
  | .swr rt base offset => encodeI 0x2E#6 base rt offset
  | .mfc z rt rd => encodeCop z 0x00#5 rt rd 0
  | .mtc z rt rd => encodeCop z 0x04#5 rt rd 0
  | .rfe => encodeCop 0 0x10#5 0 0 0x10#11

end Sys2Proof
end

