-- ==== Sys2Proof/Machine/Memory.lean ====
section
/-! DEFINITION. The flat memory (20_memory.md R59) as a list of (address, byte) pairs in one canonical form: addresses
strictly rising, all below 2^32. An address that is not listed has no value (R40, R311, U14; log 3), so no listed entry
can equal what an unlisted address reads as. -/

namespace Sys2Proof.Machine

/-- The bytes something has written, by rising address. -/
abbrev Memory := List Host.Cell

/-- The canonical form: addresses strictly rising and below 2^32. -/
abbrev Memory.wf (m : Memory) : Prop :=
  m.Pairwise (fun x y => x.1 < y.1) ∧ ∀ c ∈ m, c.1 < 2 ^ 32

/-- The byte at an address, none where nothing has been written (log 3). -/
def Memory.read : Memory → Nat → Option Byte
  | [], _ => none
  | (k, b) :: rest, a => if k = a then some b else Memory.read rest a

/-- Write one byte, in the place that keeps the canonical form. -/
def Memory.write : Memory → Nat → Byte → Memory
  | [], a, v => [(a, v)]
  | (k, b) :: rest, a, v =>
    if a < k then (a, v) :: (k, b) :: rest
    else if a = k then (a, v) :: rest
    else (k, b) :: Memory.write rest a v

/-- Write bytes at rising addresses from `a`, address sums mod 2^32 (R50). -/
def Memory.writeBytes : Memory → Word → List Byte → Memory
  | m, _, [] => m
  | m, a, b :: rest => Memory.writeBytes (Memory.write m a.toNat b) (a + 1#32) rest

/-- The canonical memory with the given cells, the first of two at one address winning; addresses are taken mod 2^32. The
spec does not say how a list of cells is read: DESIGN CHOICE, for INIT log 20 and for what IRQ_HOOK returns log 7. -/
def Memory.ofCells : List Host.Cell → Memory
  | [] => []
  | (a, b) :: rest => Memory.write (Memory.ofCells rest) (a % 2 ^ 32) b

/-- MEM_MAP (R60): the address lies in one of the admitted regions. -/
def admittedByte (map : List Region) (a : Word) : Bool :=
  map.any fun r => decide (r.base ≤ a.toNat) && decide (a.toNat < r.base + r.size)

/-- Every byte of an access of `n` bytes at `a` is admitted (R35). -/
def admittedAccess (map : List Region) (a : Word) (n : Nat) : Bool :=
  (List.range n).all fun i => admittedByte map (a + BitVec.ofNat 32 i)

end Sys2Proof.Machine
end

