-- ==== Sys2Proof/Machine/ResetValues.lean ====
section
/-! DEFINITION. The values `State.reset` uses where the spec leaves a launch parameter open (10_state.md R40,
70_reset_and_hazards.md R311; log 1, 2, 4, 8). No statement rests on one of them. -/

namespace Sys2Proof.Machine

/-- RESET_PC: 0xBFC00000, the value the spec suggests from general knowledge (R40, GK8; log 2, PRESUMED). -/
def resetPc : Word := 0xBFC00000#32

/-- INIT for registers 1 to 31, HI, LO and the coprocessor registers: the spec states no value and says "never 0"
(R311, U14), so one value that is not 0 is named (log 1, DESIGN CHOICE). -/
def resetRegister : Word := 0xA5A5A5A5#32

/-- MEM_MAP's default: all 2^32 addresses (R60). -/
def wholeSpace : List Region := [⟨0, 0x100000000⟩]

/-- The spec's defaults of the parameters of R9 (R36, R37, R38, R60, R298); no END_PC (log 8). -/
def defaultParams : Params where
  memMap := wholeSpace
  syscallEntry := .unhandled
  rfeEffect := .identity
  copRead := .plain
  copWrite := .plain
  irqHook := .none
  endPc := none

end Sys2Proof.Machine
end

