-- ==== Sys2Proof/Machine/State.lean ====
section
/-! DEFINITION. The state of the machine: the RC state record of 10_state.md R30 and the parameters of R9; the reasons
a step can stop; the state after reset (R40, R311). The core itself holds no state (R20). -/

namespace Sys2Proof.Machine

/-- The two kinds of fatal (48_trap.md R272). -/
inductive FatalKind where
  | unrecognizedInstruction
  | divideByZero
  deriving DecidableEq, Repr

/-- Why the machine halts: the values of `halt` (R30, R39). -/
inductive Fault where
  /-- The core's fatal output (R272): raised by the dispatcher for a word outside the recognised set (R273), and by
  `div` and `divu` when the divisor register holds 0 (R179). Safe: the spec itself stops here. For `divideByZero` the
  level and the funct are the spec's addition and carry no more than which divide ran (C7). -/
  | fatal (kind : FatalKind) (level : DispatchLevel) (value : Nat)
  /-- A fetch from a `pc` that is not a multiple of 4 (R32, R55), raised by the step. Safe. -/
  | misalignedFetch (pc : Word)
  /-- A jump or branch in a delay slot (R33, R34), raised by every jump and branch. Safe. -/
  | branchInDelaySlot (pc : Word)
  /-- An access that touches an address outside MEM_MAP (R35), raised by the fetch and by every load and store; the
  address is the one given to the port (log 13). Safe. -/
  | busFault (address : Word)
  /-- A system call under the default SYSCALL_ENTRY (R38), raised by `syscall`. Safe. -/
  | unhandledSyscall (pc : Word)
  /-- A read of a byte that neither the launch nor the program has written (R311, U14: "faults the run"), raised by
  the fetch and by every load, `swl` and `swr`; the model's own reason (log 3, DESIGN CHOICE). Safe. -/
  | unwrittenRead (address : Word)
  deriving DecidableEq, Repr

/-- Why an instruction has no meaning. -/
inductive Refusal where
  /-- An instruction of the table that has no meaning yet, raised by `exec` only; safe. No arm raises it now. -/
  | notModelled (mnemonic : String)
  deriving DecidableEq, Repr

/-- The machine's state. -/
structure State where
  /-- General registers 1 to 31; register 0 is not stored (R30, R31). -/
  gpr     : Vector Word 31
  /-- The address of the next instruction to dispatch (R30). -/
  pc      : Word
  /-- The accumulator HI (R24). -/
  hi      : Word
  /-- The accumulator LO (R24). -/
  lo      : Word
  /-- The coprocessor registers, bank by bank (R26, R30). -/
  cop     : Vector (Vector Word 32) 4
  /-- The flat memory (R30, R59). A byte outside MEM_MAP may be listed by INIT or by IRQ_HOOK (log 7, 20); no port reads
  or writes it (R35). -/
  mem     : Memory
  /-- The redirect owed after the instruction about to be dispatched, which is then in a delay slot (R30, R32). -/
  pending : Option Word
  /-- The fault that stopped the machine, none while it runs (R30, R39). -/
  halt    : Option Fault
  /-- The parameters in force (R9; log 4). -/
  params  : Params
  deriving DecidableEq, Repr

/-- What an instruction's meaning and a step answer. -/
abbrev Result := Host.Outcome State Fault Refusal

/-- The launch parameter INIT (R9, R40): the values the registers hold and the bytes memory holds at the start. -/
structure Init where
  gpr   : Vector Word 31
  hi    : Word
  lo    : Word
  cop   : Vector (Vector Word 32) 4
  image : List Host.Cell
  deriving DecidableEq, Repr

/-- A launch (R40, R315): the reset state for a choice of RESET_PC, INIT and the other parameters. How INIT's image is read
is the model's choice (log 20), and so is that a cell at an address outside MEM_MAP is kept in `mem`, where R30 maps admitted
addresses only: no port reaches it (R35), a platform function sees it. -/
def State.launch (entry : Word) (init : Init) (params : Params) : State where
  gpr := init.gpr
  pc := entry
  hi := init.hi
  lo := init.lo
  cop := init.cop
  mem := Memory.ofCells init.image
  pending := none
  halt := none
  params := params

/-- INIT with the named register value everywhere and an empty image (log 1, 3). -/
def Init.named : Init where
  gpr := Vector.replicate 31 resetRegister
  hi := resetRegister
  lo := resetRegister
  cop := Vector.replicate 4 (Vector.replicate 32 resetRegister)
  image := []

/-- The machine right after reset (R40, R311): the launch with the spec's default parameters, the named values where
the spec gives none (log 1, 2) and nothing listed in memory (log 3). -/
def State.reset : State := State.launch resetPc Init.named defaultParams

end Sys2Proof.Machine
end

