-- ==== Sys2Proof/Machine/Ops.lean ====
section
/-! DEFINITION. The named operations over registers, memory and control: the ports of 10_state.md R21 as the reference
context performs them (R31 to R38), the one exception entry and the return beside it (60_exceptions.md R293 to R296),
fetch, the platform's hook, and the end of a step (R32, R39). -/

namespace Sys2Proof.Machine

/-! ## Outcomes -/

/-- Go on with the value of a port operation, or stop with its fault: the handler stops at the port operation that
causes one (R286). -/
def orFault {α : Type} (x : Except Fault α) (k : α → Result) : Result :=
  match x with
  | .error f => .fault f
  | .ok a => k a

/-! ## General registers, HI and LO, coprocessor registers -/

/-- Port `get_gpr` (R31): register 0 reads 0. -/
def State.getGpr (s : State) (r : Reg) : Word :=
  if h : r.val = 0 then 0#32 else s.gpr[r.val - 1]'(by omega)

/-- Port `set_gpr` (R31): a write to register 0 changes nothing. -/
def State.setGpr (s : State) (r : Reg) (v : Word) : State :=
  if h : r.val = 0 then s else { s with gpr := s.gpr.set (r.val - 1) v (by omega) }

/-- Port `set_HI` (R24). -/
def State.setHi (s : State) (v : Word) : State := { s with hi := v }

/-- Port `set_LO` (R24). -/
def State.setLo (s : State) (v : Word) : State := { s with lo := v }

/-- The stored coprocessor register `cop[z][r]` (R30). -/
def State.getCop (s : State) (z : CopId) (r : Reg) : Word := (s.cop[z.val])[r.val]

/-- Store to the coprocessor register `cop[z][r]` (R30). -/
def State.setCop (s : State) (z : CopId) (r : Reg) (v : Word) : State :=
  { s with cop := s.cop.set z.val ((s.cop[z.val]).set r.val v) }

/-- Replace the bank `cop[0]`: what SYSCALL_ENTRY and RFE_EFFECT may change (R37, R293). -/
def State.setCop0 (s : State) (bank : Vector Word 32) : State := { s with cop := s.cop.set 0 bank }

/-! ## The program counter: advance, `jp`, `branch` -/

/-- The end of a step without a new redirect (R32): the owed redirect is taken, or `pc` advances by 4 mod 2^32. -/
def State.advance (s : State) : State :=
  match s.pending with
  | some target => { s with pc := target, pending := none }
  | none => { s with pc := s.pc + 4#32 }

/-- Port `jp` (R33) with the end of the step: in a delay slot it halts; otherwise the redirect is owed, with the
address as given, and `pc` advances to the delay slot (R32). -/
def State.jp (s : State) (address : Word) : Except Fault State :=
  match s.pending with
  | some _ => .error (.branchInDelaySlot s.pc)
  | none => .ok { s with pc := s.pc + 4#32, pending := some address }

/-- Port `branch` (R34) with the end of the step: in a delay slot it halts, whatever the condition; otherwise, when the
condition holds, the redirect to `pc + 4 + offset` is owed; `pc` advances to the delay slot in both cases (R32). -/
def State.branch (s : State) (condition : Bool) (offset : Word) : Except Fault State :=
  match s.pending with
  | some _ => .error (.branchInDelaySlot s.pc)
  | none => .ok { s with pc := s.pc + 4#32, pending := if condition then some (s.pc + 4#32 + offset) else none }

/-! ## Memory ports (R35, R50, R54) -/

/-- Every byte of an access of `n` bytes at `a` is admitted by MEM_MAP (R35). -/
def State.admits (s : State) (a : Word) (n : Nat) : Bool := admittedAccess s.params.memMap a n

/-- The byte at `a`, which something must have written (log 3). -/
def State.loadByte (s : State) (a : Word) : Except Fault Byte :=
  match s.mem.read a.toNat with
  | some b => .ok b
  | none => .error (.unwrittenRead a)

/-- Port `read8` (R35, R50). -/
def State.read8 (s : State) (a : Word) : Except Fault Byte :=
  if s.admits a 1 then s.loadByte a else .error (.busFault a)

/-- Port `read16` (R35, R50, R54): two bytes from `a`, little-endian, at any address. -/
def State.read16 (s : State) (a : Word) : Except Fault Half :=
  if s.admits a 2 then do
    let b0 ← s.loadByte a
    let b1 ← s.loadByte (a + 1#32)
    return halfOfBytes b0 b1
  else .error (.busFault a)

/-- Port `read32` (R35, R50, R54): four bytes from `a`, little-endian, at any address. -/
def State.read32 (s : State) (a : Word) : Except Fault Word :=
  if s.admits a 4 then do
    let b0 ← s.loadByte a
    let b1 ← s.loadByte (a + 1#32)
    let b2 ← s.loadByte (a + 2#32)
    let b3 ← s.loadByte (a + 3#32)
    return wordOfBytes b0 b1 b2 b3
  else .error (.busFault a)

/-- Store bytes at rising addresses from `a` (R50). -/
def State.storeBytes (s : State) (a : Word) (bytes : List Byte) : State :=
  { s with mem := s.mem.writeBytes a bytes }

/-- Port `write8` (R35, R50). -/
def State.write8 (s : State) (a : Word) (v : Byte) : Except Fault State :=
  if s.admits a 1 then .ok (s.storeBytes a [v]) else .error (.busFault a)

/-- Port `write16` (R35, R50, R54). -/
def State.write16 (s : State) (a : Word) (v : Half) : Except Fault State :=
  if s.admits a 2 then .ok (s.storeBytes a (bytesOfHalf v)) else .error (.busFault a)

/-- Port `write32` (R35, R50, R54). -/
def State.write32 (s : State) (a : Word) (v : Word) : Except Fault State :=
  if s.admits a 4 then .ok (s.storeBytes a (bytesOfWord v)) else .error (.busFault a)

/-! ## Coprocessor ports (R36) -/

/-- What the platform functions see (R38). -/
def State.snapshot (s : State) : Snapshot where
  gpr := s.gpr
  pc := s.pc
  hi := s.hi
  lo := s.lo
  cop := s.cop
  mem := s.mem
  pending := s.pending

/-- The parameter COP_READ (R36). -/
def State.copReadValue (s : State) (z : CopId) (r : Reg) (stored : Word) : Word :=
  match s.params.copRead with
  | .plain => stored
  | .platform => Config.copRead z r stored

/-- The parameter COP_WRITE (R36). -/
def State.copWriteValue (s : State) (z : CopId) (r : Reg) (value : Word) : Word :=
  match s.params.copWrite with
  | .plain => value
  | .platform => Config.copWrite z r value

/-- Port `mfc` (R36): coprocessor register `r` of `z` to general register `i`. -/
def State.copMoveFrom (s : State) (z : CopId) (r i : Reg) : State :=
  s.setGpr i (s.copReadValue z r (s.getCop z r))

/-- Port `mtc` (R36): general register `i` to coprocessor register `r` of `z`. -/
def State.copMoveTo (s : State) (z : CopId) (r i : Reg) : State :=
  s.setCop z r (s.copWriteValue z r (s.getGpr i))

/-! ## The system call and the return (R293 to R296) -/

/-- Cause after a system call under R295: BD in bit 31, ExcCode 8 in bits 6-2, the rest kept. -/
def causeOfSyscall (cause : Word) (inSlot : Bool) : Word :=
  (cause &&& 0x7FFFFF83#32) ||| (8#32 <<< 2) ||| (if inSlot then 0x80000000#32 else 0#32)

/-- Status after the push of R295: `Status[5:0] <- Status[3:0] || 0b00`, the rest kept. -/
def statusPushed (status : Word) : Word := (status &&& 0xFFFFFFC0#32) ||| ((status &&& 0xF#32) <<< 2)

/-- Status after the pop of R296: `Status[3:0] <- Status[5:2]`, the rest kept. -/
def statusPopped (status : Word) : Word := (status &&& 0xFFFFFFF0#32) ||| ((status >>> 2) &&& 0xF#32)

/-- The handler's address under R295, by Status.BEV (bit 22). -/
def syscallVector (status : Word) : Word := if status[22] then 0xBFC00180#32 else 0x80000080#32

/-- The R3000A-convention entry of R295: EPC (14), Cause (13) and Status (12) of coprocessor 0 written, the owed redirect
abandoned, control at the vector. -/
def State.enterR3000a (s : State) : State :=
  let status := s.getCop 0 12
  let epc := if s.pending.isSome then s.pc - 4#32 else s.pc
  let s1 := ((s.setCop 0 14 epc).setCop 0 13 (causeOfSyscall (s.getCop 0 13) s.pending.isSome)).setCop 0 12
    (statusPushed status)
  { s1 with pending := none, pc := syscallVector status }

/-- Port `syscall_exception()` (R38, R293): SYSCALL_ENTRY applied in place of the program counter's advance. This is the
machine's one exception entry. -/
def State.syscallException (s : State) : Result :=
  match s.params.syscallEntry with
  | .unhandled => .fault (.unhandledSyscall s.pc)
  | .r3000a => .next s.enterR3000a
  | .platform =>
    let entry := Config.syscallEntry s.snapshot
    .next { s.setCop0 entry.2 with pc := entry.1, pending := none }

/-- Port `rfe()` (R37, R294): RFE_EFFECT, which may change the bank `cop[0]` only. R37 and R294 leave open which
`pending` a platform's RFE_EFFECT sees; the model passes the redirect still owed, the `slot` of R32, and not the `none` that
R32 sets before the dispatch (DESIGN CHOICE, log 19). -/
def State.returnFromException (s : State) : State :=
  match s.params.rfeEffect with
  | .identity => s
  | .r3000a => s.setCop 0 12 (statusPopped (s.getCop 0 12))
  | .platform => s.setCop0 (Config.rfeEffect s.snapshot)

/-! ## Between and around dispatches (R32, R39, R298, R316) -/

/-- The run is finished (R316): `halt` none, `pending` none and `pc = END_PC`. -/
def State.finished (s : State) : Bool :=
  s.halt.isNone && s.pending.isNone && s.params.endPc == some s.pc

/-- The state IRQ_HOOK returns, taken over: memory in canonical form, bytes outside MEM_MAP included (log 7); where the hook acted while a redirect was owed, the
redirect is abandoned, as R298 requires (log 7). -/
def State.afterHook (s : State) (r : Snapshot) : State :=
  if r = s.snapshot then s
  else
    { s with
      gpr := r.gpr, pc := r.pc, hi := r.hi, lo := r.lo, cop := r.cop, mem := Memory.ofCells r.mem
      pending := if s.pending.isSome then none else r.pending }

/-- The parameter IRQ_HOOK, applied before a step (R298). -/
def State.interruptHook (s : State) : State :=
  match s.params.irqHook with
  | .none => s
  | .platform => s.afterHook (Config.irqHook s.snapshot)

/-- The fetch of R32: the word at `pc`, little-endian, from the data memory (R51, R74); `pc` must be a multiple of 4
(R55). -/
def State.fetch (s : State) : Except Fault Word :=
  if s.pc &&& 3#32 = 0#32 then s.read32 s.pc else .error (.misalignedFetch s.pc)

/-- A step that halts sets `halt` and changes nothing else (R39). -/
def State.haltWith (s : State) (f : Fault) : State := { s with halt := some f }

/-- The end of the step that began in `s` (R32): a fault of the dispatch halts the machine (R39). -/
def State.settle (s : State) (r : Result) : Result :=
  match r with
  | .next t => .next t
  | .fault f => .next (s.haltWith f)
  | .refused q => .refused q

/-- Store the instruction word `w` where the next fetch reads it (R51), with no look at MEM_MAP (log 11): outside it the
fetch stops all the same (R35). -/
def State.placeWord (s : State) (w : Word) : State := s.storeBytes s.pc (bytesOfWord w)

end Sys2Proof.Machine
end

