-- ==== Sys2Proof/Machine/Operands.lean ====
section
/-! DEFINITION. The operand forms: extended immediates (30_encoding.md R86), effective addresses (44_loadstore.md R190,
45_unaligned.md R211), branch offsets and jump targets (R87, R240), shift amounts (R163), and the partial-word constant
tables (R210). -/

namespace Sys2Proof.Machine

/-- `sext_16` (R11). -/
def sext16 (v : Half) : Word := v.signExtend 32
/-- `zext_16` (R11). -/
def zext16 (v : Half) : Word := v.setWidth 32
/-- `sext_8` (R11). -/
def sext8 (v : Byte) : Word := v.signExtend 32
/-- `zext_8` (R11). -/
def zext8 (v : Byte) : Word := v.setWidth 32

/-- The operand of `lui`: `imm << 16` (R86, R146). -/
def upperImmediate (imm : Half) : Word := zext16 imm <<< 16

/-- `EA = (x[base] + sext_16(offset)) mod 2^32` (R61, R190). -/
def effectiveAddress (s : State) (base : Reg) (offset : Half) : Word := s.getGpr base + sext16 offset

/-- `A = EA & 0xFFFFFFFC`, the aligned word address (R211). -/
def alignedAddress (ea : Word) : Word := ea &&& 0xFFFFFFFC#32

/-- `k = EA & 3`, the byte offset within the word (R211). -/
def byteOffset (ea : Word) : Fin 4 := ⟨(ea.extractLsb' 0 2).toNat, (ea.extractLsb' 0 2).isLt⟩

/-- The branch offset `sext_16(imm) << 2` (R86, R240). -/
def branchOffset (imm : Half) : Word := sext16 imm <<< 2

/-- The target of `j` and `jal`: the region bits of `PC + 4` and the target field scaled by 4 (R87). -/
def jumpTarget (s : State) (target : BitVec 26) : Word :=
  ((s.pc + 4#32) &&& 0xF0000000#32) ||| (target.setWidth 32 <<< 2)

/-- The return address `PC + 8` (R232, R234). -/
def linkAddress (s : State) : Word := s.pc + 8#32

/-- The variable shift amount: the low five bits of a register (R163). -/
def shiftAmount (v : Word) : Nat := (v &&& 0x1F#32).toNat

/-- A row of the tables of R210: the bits that are kept and the shift amount. -/
structure MergeRow where
  keep  : Word
  shift : Nat
  deriving DecidableEq, Repr

/-- LWL: kept bits of the register, left shift of the memory word (R210). -/
def lwlTable : Vector MergeRow 4 :=
  #v[⟨0x00FFFFFF#32, 24⟩, ⟨0x0000FFFF#32, 16⟩, ⟨0x000000FF#32, 8⟩, ⟨0x00000000#32, 0⟩]
/-- LWR: kept bits of the register, right shift of the memory word (R210). -/
def lwrTable : Vector MergeRow 4 :=
  #v[⟨0x00000000#32, 0⟩, ⟨0xFF000000#32, 8⟩, ⟨0xFFFF0000#32, 16⟩, ⟨0xFFFFFF00#32, 24⟩]
/-- SWL: kept bits of the memory word, right shift of the register (R210). -/
def swlTable : Vector MergeRow 4 :=
  #v[⟨0xFFFFFF00#32, 24⟩, ⟨0xFFFF0000#32, 16⟩, ⟨0xFF000000#32, 8⟩, ⟨0x00000000#32, 0⟩]
/-- SWR: kept bits of the memory word, left shift of the register (R210). -/
def swrTable : Vector MergeRow 4 :=
  #v[⟨0x00000000#32, 0⟩, ⟨0x000000FF#32, 8⟩, ⟨0x0000FFFF#32, 16⟩, ⟨0x00FFFFFF#32, 24⟩]

/-- The merge with a left shift: the kept bits of `old` or the shifted `new` (R212, R215). -/
def mergeLeft (row : MergeRow) (old new : Word) : Word := (old &&& row.keep) ||| (new <<< row.shift)

/-- The merge with a right shift (R213, R214). -/
def mergeRight (row : MergeRow) (old new : Word) : Word := (old &&& row.keep) ||| (new >>> row.shift)

end Sys2Proof.Machine
end

