-- ==== Sys2Proof/Machine/Flags.lean ====
section
/-! DEFINITION. This hardware has no flag, condition code or carry (10_state.md R42): a comparison is a general
register's 0 or 1 (41_alu.md R148), and a branch condition exists only inside one dispatch. The comparisons stand
here. -/

namespace Sys2Proof.Machine

/-- The result of a set-on-less-than: exactly 0 or 1 (R42, R137). -/
def boolWord (b : Bool) : Word := if b then 1 else 0

/-- `signed(x) < signed(y)`, a true signed comparison (R137). -/
def lessSigned (x y : Word) : Bool := decide (x.toInt < y.toInt)

/-- `x < y`, both unsigned (R138). -/
def lessUnsigned (x y : Word) : Bool := decide (x.toNat < y.toNat)

/-- `signed(x) <= 0` (R243). -/
def atMostZero (x : Word) : Bool := decide (x.toInt ≤ 0)

/-- `signed(x) > 0` (R244). -/
def aboveZero (x : Word) : Bool := decide (0 < x.toInt)

/-- `signed(x) < 0` (R245). -/
def belowZero (x : Word) : Bool := decide (x.toInt < 0)

/-- `signed(x) >= 0` (R246). -/
def atLeastZero (x : Word) : Bool := decide (0 ≤ x.toInt)

end Sys2Proof.Machine
end

