-- ==== Sys2Proof/Machine/Alu.lean ====
section
/-! DEFINITION. The arithmetic and logical instructions (41_alu.md R130 to R148) and the zero word (40_dispatch.md R111). Sources are read
before the one destination is written (R147); no instruction here writes a flag or raises anything. -/

namespace Sys2Proof.Machine

/-- The end of a register operation: write the destination and advance (R147, R32). -/
def writeAndAdvance (s : State) (d : Reg) (v : Word) : Result := .next (s.setGpr d v).advance

/-- The zero word (R94, R111): no port operation; the step only advances. -/
def execZeroWord  (s : State) : Result :=
  .next s.advance

/-- ADD (R130): non-trapping 32-bit sum. -/
def execAdd (rd rs rt : Reg) (s : State) : Result :=
  writeAndAdvance s rd (s.getGpr rs + s.getGpr rt)

/-- ADDU (R131): 32-bit sum. -/
def execAddu (rd rs rt : Reg) (s : State) : Result :=
  writeAndAdvance s rd (s.getGpr rs + s.getGpr rt)

/-- SUBU (R132): `x[rs] - x[rt]` mod 2^32. -/
def execSubu (rd rs rt : Reg) (s : State) : Result :=
  writeAndAdvance s rd (s.getGpr rs - s.getGpr rt)

/-- AND (R133). -/
def execAnd (rd rs rt : Reg) (s : State) : Result :=
  writeAndAdvance s rd (s.getGpr rs &&& s.getGpr rt)

/-- OR (R134). -/
def execOr (rd rs rt : Reg) (s : State) : Result :=
  writeAndAdvance s rd (s.getGpr rs ||| s.getGpr rt)

/-- XOR (R135). -/
def execXor (rd rs rt : Reg) (s : State) : Result :=
  writeAndAdvance s rd (s.getGpr rs ^^^ s.getGpr rt)

/-- NOR (R136). -/
def execNor (rd rs rt : Reg) (s : State) : Result :=
  writeAndAdvance s rd (~~~(s.getGpr rs ||| s.getGpr rt))

/-- SLT (R137): signed comparison. -/
def execSlt (rd rs rt : Reg) (s : State) : Result :=
  writeAndAdvance s rd (boolWord (lessSigned (s.getGpr rs) (s.getGpr rt)))

/-- SLTU (R138): unsigned comparison. -/
def execSltu (rd rs rt : Reg) (s : State) : Result :=
  writeAndAdvance s rd (boolWord (lessUnsigned (s.getGpr rs) (s.getGpr rt)))

/-- ADDI (R140): sign-extended immediate, non-trapping. -/
def execAddi (rt rs : Reg) (imm : Half) (s : State) : Result :=
  writeAndAdvance s rt (s.getGpr rs + sext16 imm)

/-- ADDIU (R141): sign-extended immediate. -/
def execAddiu (rt rs : Reg) (imm : Half) (s : State) : Result :=
  writeAndAdvance s rt (s.getGpr rs + sext16 imm)

/-- SLTI (R142): signed comparison with the sign-extended immediate. -/
def execSlti (rt rs : Reg) (imm : Half) (s : State) : Result :=
  writeAndAdvance s rt (boolWord (lessSigned (s.getGpr rs) (sext16 imm)))

/-- SLTIU (R143, C1): unsigned comparison with the zero-extended immediate. -/
def execSltiu (rt rs : Reg) (imm : Half) (s : State) : Result :=
  writeAndAdvance s rt (boolWord (lessUnsigned (s.getGpr rs) (zext16 imm)))

/-- ANDI (R144): zero-extended immediate. -/
def execAndi (rt rs : Reg) (imm : Half) (s : State) : Result :=
  writeAndAdvance s rt (s.getGpr rs &&& zext16 imm)

/-- ORI (R145): zero-extended immediate. -/
def execOri (rt rs : Reg) (imm : Half) (s : State) : Result :=
  writeAndAdvance s rt (s.getGpr rs ||| zext16 imm)

/-- LUI (R146): the immediate in the upper half, zeros below; no register is read. -/
def execLui (rt : Reg) (imm : Half) (s : State) : Result :=
  writeAndAdvance s rt (upperImmediate imm)

end Sys2Proof.Machine
end

