-- ==== Sys2Proof/Machine/Control.lean ====
section
/-! DEFINITION. The jumps and branches (46_control.md R230 to R250). `PC` is the address of the jump or branch itself (R23). -/

namespace Sys2Proof.Machine

/-- The end of a jump that links: the redirect first, then the register write (R232, R234). -/
def jumpAndLink (s : State) (address : Word) (link : Reg) : Result :=
  orFault (s.jp address) fun t => .next (t.setGpr link (linkAddress s))

/-- The end of a jump without a link. -/
def jumpTo (s : State) (address : Word) : Result := orFault (s.jp address) fun t => .next t

/-- The end of a conditional branch: outcome and offset are reported whether or not it is taken (R240). -/
def branchOn (s : State) (condition : Bool) (offset : Half) : Result :=
  orFault (s.branch condition (branchOffset offset)) fun t => .next t

/-- J (R230). -/
def execJ (target : BitVec 26) (s : State) : Result :=
  jumpTo s (jumpTarget s target)

/-- JAL (R232): links into register 31. -/
def execJal (target : BitVec 26) (s : State) : Result :=
  jumpAndLink s (jumpTarget s target) 31

/-- JR (R233): the address is passed with all its bits. -/
def execJr (rs : Reg) (s : State) : Result :=
  jumpTo s (s.getGpr rs)

/-- JALR (R234): `rs` is read before `rd` is written. -/
def execJalr (rd rs : Reg) (s : State) : Result :=
  jumpAndLink s (s.getGpr rs) rd

/-- BEQ (R241). -/
def execBeq (rs rt : Reg) (offset : Half) (s : State) : Result :=
  branchOn s (s.getGpr rs == s.getGpr rt) offset

/-- BNE (R242). -/
def execBne (rs rt : Reg) (offset : Half) (s : State) : Result :=
  branchOn s (s.getGpr rs != s.getGpr rt) offset

/-- BLEZ (R243). -/
def execBlez (rs : Reg) (offset : Half) (s : State) : Result :=
  branchOn s (atMostZero (s.getGpr rs)) offset

/-- BGTZ (R244). -/
def execBgtz (rs : Reg) (offset : Half) (s : State) : Result :=
  branchOn s (aboveZero (s.getGpr rs)) offset

/-- BLTZ (R245). -/
def execBltz (rs : Reg) (offset : Half) (s : State) : Result :=
  branchOn s (belowZero (s.getGpr rs)) offset

/-- BGEZ (R246). -/
def execBgez (rs : Reg) (offset : Half) (s : State) : Result :=
  branchOn s (atLeastZero (s.getGpr rs)) offset

end Sys2Proof.Machine
end

