-- ==== Sys2Proof/Machine/Coprocessor.lean ====
section
/-! DEFINITION. The coprocessor interface (47_coprocessor.md R260 to R263): no privilege or usability check in any state. -/

namespace Sys2Proof.Machine

/-- MFCz (R260): coprocessor register `rd` of `z` to general register `rt`. -/
def execMfc (z : CopId) (rt rd : Reg) (s : State) : Result :=
  .next (s.copMoveFrom z rd rt).advance

/-- MTCz (R261): general register `rt` to coprocessor register `rd` of `z`. -/
def execMtc (z : CopId) (rt rd : Reg) (s : State) : Result :=
  .next (s.copMoveTo z rd rt).advance

/-- RFE (R262, R294): RFE_EFFECT; the program counter only advances. -/
def execRfe  (s : State) : Result :=
  .next s.returnFromException.advance

end Sys2Proof.Machine
end

