-- ==== Sys2Proof/Machine/LoadStore.lean ====
section
/-! DEFINITION. The aligned-width loads and stores (44_loadstore.md R190 to R199). The address goes to the port unchanged and unchecked
(R53); the port acts bytewise at any address (R54). -/

namespace Sys2Proof.Machine

/-- The end of a load: a read that halts writes no register (R199). -/
def loadInto (s : State) (rt : Reg) (x : Except Fault Word) : Result := orFault x fun v => writeAndAdvance s rt v

/-- The end of a store. -/
def storeAndAdvance (x : Except Fault State) : Result := orFault x fun t => .next t.advance

/-- LB (R191): sign-extended byte. -/
def execLb (rt base : Reg) (offset : Half) (s : State) : Result :=
  loadInto s rt ((s.read8 (effectiveAddress s base offset)).map sext8)

/-- LBU (R192): zero-extended byte. -/
def execLbu (rt base : Reg) (offset : Half) (s : State) : Result :=
  loadInto s rt ((s.read8 (effectiveAddress s base offset)).map zext8)

/-- LH (R193): sign-extended halfword. -/
def execLh (rt base : Reg) (offset : Half) (s : State) : Result :=
  loadInto s rt ((s.read16 (effectiveAddress s base offset)).map sext16)

/-- LHU (R194): zero-extended halfword. -/
def execLhu (rt base : Reg) (offset : Half) (s : State) : Result :=
  loadInto s rt ((s.read16 (effectiveAddress s base offset)).map zext16)

/-- LW (R195). -/
def execLw (rt base : Reg) (offset : Half) (s : State) : Result :=
  loadInto s rt (s.read32 (effectiveAddress s base offset))

/-- SB (R196): the low byte of `x[rt]`. -/
def execSb (rt base : Reg) (offset : Half) (s : State) : Result :=
  storeAndAdvance (s.write8 (effectiveAddress s base offset) ((s.getGpr rt).extractLsb' 0 8))

/-- SH (R197): the low half of `x[rt]`. -/
def execSh (rt base : Reg) (offset : Half) (s : State) : Result :=
  storeAndAdvance (s.write16 (effectiveAddress s base offset) ((s.getGpr rt).extractLsb' 0 16))

/-- SW (R198). -/
def execSw (rt base : Reg) (offset : Half) (s : State) : Result :=
  storeAndAdvance (s.write32 (effectiveAddress s base offset) (s.getGpr rt))

end Sys2Proof.Machine
end

