-- ==== Sys2Proof/Machine/MulDiv.lean ====
section
/-! DEFINITION. Multiply, divide and the HI/LO moves (43_muldiv.md R170 to R179). Results are computed exactly on integers and narrowed
at the end. -/

namespace Sys2Proof.Machine

/-- Write LO, then HI, and advance (R178, R32). -/
def writeHiLo (s : State) (hi lo : Word) : Result := .next ((s.setLo lo).setHi hi).advance

/-- MULTU (R170): the exact 64-bit product, low half in LO, high half in HI. -/
def execMultu (rs rt : Reg) (s : State) : Result :=
  let p := (s.getGpr rs).toNat * (s.getGpr rt).toNat
  writeHiLo s (BitVec.ofNat 32 (p / 2 ^ 32)) (BitVec.ofNat 32 p)

/-- DIV (R171): quotient rounded toward zero in LO, `n - q * d` in HI; a zero divisor is fatal before any write (R179).
-2^31 / -1 gives 0x80000000 and 0, as the formulas do mod 2^32 (D14; log 15). -/
def execDiv (rs rt : Reg) (s : State) : Result :=
  let n := (s.getGpr rs).toInt
  let d := (s.getGpr rt).toInt
  if s.getGpr rt = 0 then .fault (.fatal .divideByZero .special 0x1A)
  else writeHiLo s (BitVec.ofInt 32 (n - n.tdiv d * d)) (BitVec.ofInt 32 (n.tdiv d))

/-- DIVU (R172): floor quotient in LO, remainder in HI; a zero divisor is fatal before any write (R179). -/
def execDivu (rs rt : Reg) (s : State) : Result :=
  let n := (s.getGpr rs).toNat
  let d := (s.getGpr rt).toNat
  if s.getGpr rt = 0 then .fault (.fatal .divideByZero .special 0x1B)
  else writeHiLo s (BitVec.ofNat 32 (n - n / d * d)) (BitVec.ofNat 32 (n / d))

/-- MFHI (R173). -/
def execMfhi (rd : Reg) (s : State) : Result :=
  writeAndAdvance s rd s.hi

/-- MFLO (R174). -/
def execMflo (rd : Reg) (s : State) : Result :=
  writeAndAdvance s rd s.lo

/-- MTHI (R175). -/
def execMthi (rs : Reg) (s : State) : Result :=
  .next (s.setHi (s.getGpr rs)).advance

/-- MTLO (R176). -/
def execMtlo (rs : Reg) (s : State) : Result :=
  .next (s.setLo (s.getGpr rs)).advance

end Sys2Proof.Machine
end

