-- ==== Sys2Proof/Machine/Shift.lean ====
section
/-! DEFINITION. The shift instructions (42_shift.md R160 to R166): the value is `x[rt]`, a variable amount is the low five bits of `x[rs]`. -/

namespace Sys2Proof.Machine

/-- SLL (R160): left shift, zeros enter. -/
def execSll (rd rt : Reg) (shamt : Nat) (s : State) : Result :=
  writeAndAdvance s rd (s.getGpr rt <<< shamt)

/-- SRL (R161): right shift, zeros enter. -/
def execSrl (rd rt : Reg) (shamt : Nat) (s : State) : Result :=
  writeAndAdvance s rd (s.getGpr rt >>> shamt)

/-- SRA (R162): right shift, copies of the sign bit enter. -/
def execSra (rd rt : Reg) (shamt : Nat) (s : State) : Result :=
  writeAndAdvance s rd ((s.getGpr rt).sshiftRight shamt)

/-- SLLV (R163). -/
def execSllv (rd rt rs : Reg) (s : State) : Result :=
  writeAndAdvance s rd (s.getGpr rt <<< shiftAmount (s.getGpr rs))

/-- SRLV (R164). -/
def execSrlv (rd rt rs : Reg) (s : State) : Result :=
  writeAndAdvance s rd (s.getGpr rt >>> shiftAmount (s.getGpr rs))

/-- SRAV (R165). -/
def execSrav (rd rt rs : Reg) (s : State) : Result :=
  writeAndAdvance s rd ((s.getGpr rt).sshiftRight (shiftAmount (s.getGpr rs)))

end Sys2Proof.Machine
end

