-- ==== Sys2Proof/Machine/Trap.lean ====
section
/-! DEFINITION. The system call (48_trap.md R270). -/

namespace Sys2Proof.Machine

/-- SYSCALL (R270): `syscall_exception()` and nothing else. -/
def execSyscall  (s : State) : Result :=
  s.syscallException

end Sys2Proof.Machine
end

