-- ==== Sys2Proof/Machine/Unaligned.lean ====
section
/-! DEFINITION. The partial-word loads and stores (45_unaligned.md R210 to R217). Each reads the aligned word; the stores write it back
whole, merged (R56, R211). -/

namespace Sys2Proof.Machine

/-- A partial-word load: the aligned word merged into the old value of `rt` (R211 to R213). -/
def mergeLoad (s : State) (rt : Reg) (ea : Word) (merge : Word → Word → Word) : Result :=
  loadInto s rt ((s.read32 (alignedAddress ea)).map fun m => merge (s.getGpr rt) m)

/-- A partial-word store: `x[rt]` merged into the aligned word, which is then written (R211, R214, R215). -/
def mergeStore (s : State) (rt : Reg) (ea : Word) (merge : Word → Word → Word) : Result :=
  orFault (s.read32 (alignedAddress ea)) fun m =>
    storeAndAdvance (s.write32 (alignedAddress ea) (merge m (s.getGpr rt)))

/-- LWL (R212). -/
def execLwl (rt base : Reg) (offset : Half) (s : State) : Result :=
  let ea := effectiveAddress s base offset
  mergeLoad s rt ea (mergeLeft lwlTable[(byteOffset ea).val])

/-- LWR (R213). -/
def execLwr (rt base : Reg) (offset : Half) (s : State) : Result :=
  let ea := effectiveAddress s base offset
  mergeLoad s rt ea (mergeRight lwrTable[(byteOffset ea).val])

/-- SWL (R214). -/
def execSwl (rt base : Reg) (offset : Half) (s : State) : Result :=
  let ea := effectiveAddress s base offset
  mergeStore s rt ea (mergeRight swlTable[(byteOffset ea).val])

/-- SWR (R215). -/
def execSwr (rt base : Reg) (offset : Half) (s : State) : Result :=
  let ea := effectiveAddress s base offset
  mergeStore s rt ea (mergeLeft swrTable[(byteOffset ea).val])

end Sys2Proof.Machine
end

