-- ==== Sys2Proof/Machine/Cycle.lean ====
section
/-! DEFINITION. One fetch and dispatch of a running machine (10_state.md R32). -/

namespace Sys2Proof.Machine

/-- The dispatch of the word `w` in state `s` (R110): an instruction, or the fatal of R118 and R273. -/
def State.dispatch (s : State) (w : Word) : Result :=
  match decode w with
  | .instr i => exec i s
  | .unrecognized level value => .fault (.fatal .unrecognizedInstruction level value)

/-- The body of R32 from state `s`: fetch, dispatch, and the halt of whatever stopped (R39; log 9). -/
def State.fetchAndDispatch (s : State) : Result := s.settle (orFault s.fetch s.dispatch)

/-- The step of a machine that runs: IRQ_HOOK first (R298), then the body of R32. -/
def State.cycle (s : State) : Result := s.interruptHook.fetchAndDispatch

end Sys2Proof.Machine
end

