-- ==== Sys2Proof/Machine/Step.lean ====
section
/-! DEFINITION. One step of the machine (10_state.md R32) and the placing of an instruction word where it fetches. -/

namespace Sys2Proof.Machine

/-- One step (R32). A halted machine takes none (R39); a finished run stays in its final state (R316; log 8). -/
def step (s : State) : Host.Outcome State Fault Refusal :=
  match s.halt with
  | some f => .fault f
  | none => if s.finished then .next s else s.cycle

/-- The instruction word of a table row stored where the next step fetches it (R51; log 11). -/
def State.withFetchWord (s : State) (nbits w : Nat) : State := s.placeWord (tableWord nbits w)

end Sys2Proof.Machine
end

