-- ==== Sys2Proof/Safety.lean ====
section
/-! DEFINITION. The terms in which the statements speak: what a run must not meet, what a state has to satisfy, what an
instruction leaves unchanged, and which words encode an instruction. -/

namespace Sys2Proof.Machine

/-! ## Safe runs -/

/-- The machine still runs: no fault has been set (R39). -/
def State.running (s : State) : Prop := s.halt = none

/-- The invariant of every step: memory is in its canonical form. -/
def State.Inv (s : State) : Prop := s.mem.wf

/-- A step is safe where it goes on and does not halt the machine (R316: a halted state is never success). -/
def SafeStep (s : State) : Prop := ∃ t, step s = .next t ∧ t.running

/-! ## Frames

Each says what two states agree on; registers, coprocessor registers and memory are compared through the reads. -/

/-- Every general register reads the same. -/
def SameGprs (s t : State) : Prop := ∀ r, t.getGpr r = s.getGpr r

/-- Every general register but `d` reads the same. -/
def SameGprsBut (s t : State) (d : Reg) : Prop := ∀ r, r ≠ d → t.getGpr r = s.getGpr r

/-- HI and LO are the same. -/
def SameHiLo (s t : State) : Prop := t.hi = s.hi ∧ t.lo = s.lo

/-- Every coprocessor register reads the same. -/
def SameCop (s t : State) : Prop := ∀ z r, t.getCop z r = s.getCop z r

/-- Every byte of memory reads the same. -/
def SameMem (s t : State) : Prop := ∀ a, t.mem.read a = s.mem.read a

/-- `halt` and the parameters are the same. -/
def SameSetup (s t : State) : Prop := t.halt = s.halt ∧ t.params = s.params

/-- Nothing but the program counter and the owed redirect differs. -/
def OnlyControl (s t : State) : Prop :=
  SameGprs s t ∧ SameHiLo s t ∧ SameCop s t ∧ SameMem s t ∧ SameSetup s t

/-- General register `d` is written with `v` (register 0 still reads 0, R31); but for the program counter and the owed
redirect nothing else differs. -/
def WritesGpr (s t : State) (d : Reg) (v : Word) : Prop :=
  t.getGpr d = (if d = 0 then 0 else v) ∧ SameGprsBut s t d ∧ SameHiLo s t ∧ SameCop s t ∧ SameMem s t ∧ SameSetup s t

/-- HI and LO hold the given values; but for the program counter and the owed redirect nothing else differs. -/
def WritesHiLo (s t : State) (hi lo : Word) : Prop :=
  t.hi = hi ∧ t.lo = lo ∧ SameGprs s t ∧ SameCop s t ∧ SameMem s t ∧ SameSetup s t

/-- The bytes from address `a` on (sums mod 2^32) hold `v 0`, …, `v (n - 1)`; every other byte of memory reads as before;
but for the program counter and the owed redirect nothing else differs. -/
def StoresBytes (s t : State) (a : Word) (n : Nat) (v : Nat → Byte) : Prop :=
  (∀ i, i < n → t.mem.read (a + BitVec.ofNat 32 i).toNat = some (v i)) ∧
  (∀ c, (∀ i, i < n → c ≠ (a + BitVec.ofNat 32 i).toNat) → t.mem.read c = s.mem.read c) ∧
  SameGprs s t ∧ SameHiLo s t ∧ SameCop s t ∧ SameSetup s t

/-- Coprocessor register `r` of `z` holds `v`; but for the program counter and the owed redirect nothing else differs. -/
def WritesCop (s t : State) (z : CopId) (r : Reg) (v : Word) : Prop :=
  t.getCop z r = v ∧ (∀ z' r', (z' ≠ z ∨ r' ≠ r) → t.getCop z' r' = s.getCop z' r') ∧
  SameGprs s t ∧ SameHiLo s t ∧ SameMem s t ∧ SameSetup s t

/-- Nothing but the program counter, the owed redirect and the registers of coprocessor 0 differs: what SYSCALL_ENTRY
may change (R293). -/
def OnlyEntryState (s t : State) : Prop :=
  (∀ z r, z ≠ 0 → t.getCop z r = s.getCop z r) ∧ SameGprs s t ∧ SameHiLo s t ∧ SameMem s t ∧ SameSetup s t

/-- The end of a step without a new redirect (R32): the owed redirect is taken, or `pc` is advanced by 4 mod 2^32; no
redirect is owed after it. -/
def Advanced (s t : State) : Prop :=
  t.pending = none ∧
  match s.pending with
  | some target => t.pc = target
  | none => t.pc.toNat = (s.pc.toNat + 4) % 2 ^ 32

/-- The `n` bytes from `a` on (sums mod 2^32) are admitted by MEM_MAP and hold `m 0`, …, `m (n - 1)`. -/
def HoldsBytes (s : State) (a : Word) (n : Nat) (m : Nat → Byte) : Prop :=
  s.admits a n = true ∧ ∀ i, i < n → s.mem.read (a + BitVec.ofNat 32 i).toNat = some (m i)

/-- Some byte of the `n` bytes from `a` on (sums mod 2^32) has been written by nothing. -/
def SomeUnwritten (s : State) (a : Word) (n : Nat) : Prop :=
  ∃ i, i < n ∧ s.mem.read (a + BitVec.ofNat 32 i).toNat = none

/-- The result is the stop at an unwritten byte of the `n` bytes from `a` on (log 3). -/
def StopsAtUnwritten (s : State) (a : Word) (n : Nat) (r : Result) : Prop :=
  ∃ i, i < n ∧ s.mem.read (a + BitVec.ofNat 32 i).toNat = none ∧
    r = .fault (.unwrittenRead (a + BitVec.ofNat 32 i))

/-- The next state, if there is one, changed by `f`. -/
def mapNext (f : State → State) (r : Result) : Result :=
  match r with
  | .next t => .next (f t)
  | .fault e => .fault e
  | .refused q => .refused q

/-! ## Kinds of instructions -/

/-- The ten jumps and branches (46_control.md). -/
def isTransfer : Instr → Bool
  | .j .. | .jal .. | .jr .. | .jalr .. | .beq .. | .bne .. | .blez .. | .bgtz .. | .bltz .. | .bgez .. => true
  | .zeroWord | .sll .. | .srl .. | .sra .. | .sllv .. | .srlv .. | .srav .. | .syscall | .mfhi .. | .mthi ..
  | .mflo .. | .mtlo .. | .multu .. | .div .. | .divu .. | .add .. | .addu .. | .subu .. | .and .. | .or ..
  | .xor .. | .nor .. | .slt .. | .sltu .. | .addi .. | .addiu .. | .slti .. | .sltiu .. | .andi .. | .ori ..
  | .lui .. | .lb .. | .lh .. | .lwl .. | .lw .. | .lbu .. | .lhu .. | .lwr .. | .sb .. | .sh .. | .swl ..
  | .sw .. | .swr .. | .mfc .. | .mtc .. | .rfe => false

/-- The instructions that reach a coprocessor register through a port: `mfc`, `mtc`, `rfe`, and `syscall` through
SYSCALL_ENTRY. -/
def touchesCop : Instr → Bool
  | .mfc .. | .mtc .. | .rfe | .syscall => true
  | .zeroWord | .sll .. | .srl .. | .sra .. | .sllv .. | .srlv .. | .srav .. | .jr .. | .jalr .. | .mfhi ..
  | .mthi .. | .mflo .. | .mtlo .. | .multu .. | .div .. | .divu .. | .add .. | .addu .. | .subu .. | .and ..
  | .or .. | .xor .. | .nor .. | .slt .. | .sltu .. | .bltz .. | .bgez .. | .j .. | .jal .. | .beq .. | .bne ..
  | .blez .. | .bgtz .. | .addi .. | .addiu .. | .slti .. | .sltiu .. | .andi .. | .ori .. | .lui .. | .lb ..
  | .lh .. | .lwl .. | .lw .. | .lbu .. | .lhu .. | .lwr .. | .sb .. | .sh .. | .swl .. | .sw .. | .swr .. => false

/-! ## Encodings

Each says that every word with the given selectors, whatever its other bits, decodes to the instruction read from its
fields; so it also says which fields are ignored (R93). -/

/-- Special table: `opcode = 0` and the given `funct` (R90); the zero word is not in it (R94). -/
def EncodedSpecial (funct : BitVec 6) (i : Word → Instr) : Prop :=
  ∀ w, w ≠ 0 → opcodeOf w = 0 → functOf w = funct → decode w = .instr (i w)

/-- Primary table: the given `opcode` (R89). -/
def EncodedPrimary (opcode : BitVec 6) (i : Word → Instr) : Prop :=
  ∀ w, opcodeOf w = opcode → decode w = .instr (i w)

/-- Regimm table: `opcode = 1` and the given `rt` (R91). -/
def EncodedRegimm (rt : BitVec 5) (i : Word → Instr) : Prop :=
  ∀ w, opcodeOf w = 1 → rtBits w = rt → decode w = .instr (i w)

/-- Coprocessor table: `w[31:28] = 0100` and the given sub-operation in `rs`, for every coprocessor id (R92). -/
def EncodedCop (sub : BitVec 5) (i : Word → Instr) : Prop :=
  ∀ w : Word, w.extractLsb' 28 4 = 0b0100#4 → rsBits w = sub → decode w = .instr (i w)

end Sys2Proof.Machine
end

