-- ==== Sys2Proof/Certificates/Slice0/Obligations.lean ====
section
/-! DEFINITION. The statements for the provers. Words of the statements (`WritesGpr`, `Advanced`, `HoldsBytes`, …) stand
in Safety.lean. `R<n>` is a rule of the spec, `D<n>` a decision and `GK<n>` a passage from general knowledge that the
spec marks as its own; a statement that rests on one of those is 'derived' in OBLIGATIONS.json. The `Encoded…` clauses state
the selectors that the instructions' own rules give; their numeric values are the spec's, from GK1 (log 16). -/

open Sys2Proof Sys2Proof.Machine

/-! ## Encoding -/

/-- One word of each family, written out bit by bit from the formats R82 to R85 and the tables R89 to R92, decodes to the
instruction it stands for; two of the spec's unrecognised words are refused at their level (GK1). -/
def Obligations.WrittenOutWordsDecode : Prop :=
  decode 0b00000000000000000000000000000000#32 = .instr .zeroWord ∧
  decode 0b00000000001000100001100000100011#32 = .instr (.subu 3 1 2) ∧
  decode 0b00100100001000101000000000000000#32 = .instr (.addiu 2 1 0x8000#16) ∧
  decode 0b00000000000000100001100100000011#32 = .instr (.sra 3 2 4) ∧
  decode 0b00000000001000100000000000011010#32 = .instr (.div 1 2) ∧
  decode 0b10001100001000100000000000000100#32 = .instr (.lw 2 1 4#16) ∧
  decode 0b10101000001000100000000000000001#32 = .instr (.swl 2 1 1#16) ∧
  decode 0b00001100000000000000010000000000#32 = .instr (.jal 0x400#26) ∧
  decode 0b00000100001000010000000000000100#32 = .instr (.bgez 1 4#16) ∧
  decode 0b01001000100000100110000000000000#32 = .instr (.mtc 2 2 12) ∧
  decode 0b01000010000000000000000000010000#32 = .instr .rfe ∧
  decode 0b00000000000000000000000000001100#32 = .instr .syscall ∧
  decode 0b11111100000000000000000000000000#32 = .unrecognized .primary 0x3F ∧
  decode 0b01001010000000000000000000010000#32 = .unrecognized .coprocessor 0x50

/-- Decoding the canonical word of a well-formed instruction gives that instruction back: no bit of an encoding is
dropped and no two instructions share a word. (The word of `sll $0, $0, 0` is the model's choice, log 10.) -/
def Obligations.DecodeOfEncodeGivesTheInstruction : Prop :=
  ∀ i : Instr, i.wellFormed = true → decode (encode i) = .instr i

/-- Whatever a word decodes to is well-formed: in particular no fixed shift reaches the register width (R166). -/
def Obligations.DecodedInstructionsAreWellFormed : Prop :=
  ∀ (w : Word) (i : Instr), decode w = .instr i → i.wellFormed = true

/-- R111, R94: the all-zero word, and no other, is the zero word (D26); it completes in every state and changes nothing
but the program counter and the owed redirect. -/
def Obligations.ZeroWordIsTheOnlyNoOp : Prop :=
  (∀ w : Word, decode w = .instr .zeroWord ↔ w = 0) ∧
  ∀ s : State, ∃ t, exec .zeroWord s = .next t ∧ OnlyControl s t ∧ Advanced s t

/-- R95, R112 to R115, R118: a word whose selector is not in the table of its level is refused with that level and that
selector (the set is D1, D16; the selector values GK1). -/
def Obligations.UnrecognisedSelectorsAreReported : Prop :=
  (∀ w : Word, (opcodeOf w).toNat ∉ [0x00, 0x01, 0x02, 0x03, 0x04, 0x05, 0x06, 0x07, 0x08, 0x09, 0x0A, 0x0B, 0x0C, 0x0D,
      0x0F, 0x10, 0x11, 0x12, 0x13, 0x20, 0x21, 0x22, 0x23, 0x24, 0x25, 0x26, 0x28, 0x29, 0x2A, 0x2B, 0x2E] →
    decode w = .unrecognized .primary (opcodeOf w).toNat) ∧
  (∀ w : Word, opcodeOf w = 0 → (functOf w).toNat ∉ [0x00, 0x02, 0x03, 0x04, 0x06, 0x07, 0x08, 0x09, 0x0C, 0x10, 0x11,
      0x12, 0x13, 0x19, 0x1A, 0x1B, 0x20, 0x21, 0x23, 0x24, 0x25, 0x26, 0x27, 0x2A, 0x2B] →
    decode w = .unrecognized .special (functOf w).toNat) ∧
  (∀ w : Word, opcodeOf w = 1 → (rtBits w).toNat ∉ [0x00, 0x01] → decode w = .unrecognized .regimm (rtBits w).toNat) ∧
  (∀ w : Word, (opcodeOf w).toNat / 4 = 4 → (rsBits w).toNat ∉ [0x00, 0x04] →
    ¬ ((rsBits w).toNat = 0x10 ∧ (opcodeOf w).toNat = 0x10) →
    decode w = .unrecognized .coprocessor (32 * ((opcodeOf w).toNat % 4) + (rsBits w).toNat))

/-! ## The step -/

/-- R32, R298 (D4, D20): where a running, unfinished machine fetches a word that decodes to `i`, the step is `exec i` of
the state the hook leaves (the state itself with no hook), and a fault of `i` sets `halt` in that state and nothing else
(R39, D15; log 9). The hook's place, after the tests of `halt` and END_PC and before the fetch, is the model's choice
(log 7): R298 and R316 do not fix that order. What the hook leaves is stated in InterruptHookTakesThePlatformsState. -/
def Obligations.StepRunsTheDecodedInstruction : Prop :=
  (∀ s : State, s.params.irqHook = .none → s.interruptHook = s) ∧
  ∀ (s : State) (w : Word) (i : Instr), s.halt = none → s.finished = false → s.interruptHook.fetch = .ok w →
    decode w = .instr i →
    step s =
      match exec i s.interruptHook with
      | .next t => .next t
      | .fault f => .next { s.interruptHook with halt := some f }
      | .refused q => .refused q

/-- R32, R51, R55, R35 (D8, D10): the fetch of a `pc` that is a multiple of 4 reads the little-endian word there; of any
other `pc` it stops with MisalignedFetch; outside MEM_MAP with BusFault of `pc` (log 13). -/
def Obligations.FetchReadsTheWordAtPc : Prop :=
  ∀ s : State,
    (s.pc.toNat % 4 ≠ 0 → s.fetch = .error (.misalignedFetch s.pc)) ∧
    (s.pc.toNat % 4 = 0 → s.admits s.pc 4 = false → s.fetch = .error (.busFault s.pc)) ∧
    (∀ m : Nat → Byte, s.pc.toNat % 4 = 0 → HoldsBytes s s.pc 4 m →
      s.fetch = .ok (BitVec.ofNat 32
        ((m 0).toNat + 2 ^ 8 * (m 1).toNat + 2 ^ 16 * (m 2).toNat + 2 ^ 24 * (m 3).toNat)))

/-- R32, R273, R286 (D15): a step that cannot fetch, or that fetches an unrecognised word, sets `halt` to the reason in the
state the hook leaves and changes nothing else of that state. With no hook that is the state before the step (R298). That
the hook's effect is part of the step is the model's choice (log 7), as is the next state that records the halt (log 9). -/
def Obligations.StepHaltsOnFetchFaultOrUnrecognisedWord : Prop :=
  ∀ s : State, s.halt = none → s.finished = false →
    (∀ f, s.interruptHook.fetch = .error f → step s = .next { s.interruptHook with halt := some f }) ∧
    (∀ w level value, s.interruptHook.fetch = .ok w → decode w = .unrecognized level value →
      step s = .next { s.interruptHook with halt := some (.fatal .unrecognizedInstruction level value) })

/-- R39 (D15; log 9): a halted machine takes no further step; it is stuck with its reason. -/
def Obligations.HaltedMachineTakesNoStep : Prop :=
  ∀ (s : State) (f : Fault), s.halt = some f → step s = .fault f

/-- R39, C8 (D15): a step that sets `halt`, whatever it ran, leaves every other component, `pending` included, as the hook
left it. With no hook that is the state before the step (R298). That the hook's effect is part of the step is the model's
choice (log 7), as is the next state that records the halt (log 9). -/
def Obligations.HaltingStepChangesOnlyHalt : Prop :=
  ∀ s t : State, step s = .next t → t.halt ≠ none →
    ∃ f, t = { s.interruptHook with halt := some f }

/-- The invariant: from every state whose memory is in canonical form, a step leaves memory in canonical form. (The
canonical form is the model's own representation of R59's memory, log 3.) -/
def Obligations.EveryStepKeepsMemoryCanonical : Prop :=
  ∀ s t : State, s.Inv → step s = .next t → t.Inv

/-- R40, R311: after reset nothing has halted, no redirect is owed and register 0 reads 0; MEM_MAP, SYSCALL_ENTRY,
RFE_EFFECT, COP_READ, COP_WRITE and IRQ_HOOK are the spec's defaults (R36, R37, R38, R60, R298). The model's choices among
the clauses: memory holds no byte, since INIT is left to the launch (log 3, 11), and END_PC is none, since the spec names no
default of it (log 8). The values of `pc` and the registers are the model's too (log 1, 2) and are not stated. -/
def Obligations.ResetState : Prop :=
  State.reset.Inv ∧ State.reset.halt = none ∧ State.reset.pending = none ∧ (∀ a, State.reset.mem.read a = none) ∧
  State.reset.getGpr 0 = 0 ∧ (∀ a, admittedByte State.reset.params.memMap a = true) ∧
  State.reset.params.syscallEntry = .unhandled ∧ State.reset.params.rfeEffect = .identity ∧
  State.reset.params.copRead = .plain ∧ State.reset.params.copWrite = .plain ∧ State.reset.params.irqHook = .none ∧
  State.reset.params.endPc = none

/-- R40, R315 (D22): a launch starts at RESET_PC with no redirect owed and nothing halted; register 0 reads 0, every other
register holds what INIT says, and memory holds INIT's bytes and no others. How the image is read is the model's choice, in
no rule of the spec: its addresses are taken mod 2^32, of two cells at one address the first counts, a cell outside
MEM_MAP is kept (log 20), and the memory built from it is in the model's canonical form (log 3). -/
def Obligations.LaunchTakesRegistersAndImageFromInit : Prop :=
  ∀ (entry : Word) (init : Init) (params : Params),
    let s := State.launch entry init params
    s.pc = entry ∧ s.pending = none ∧ s.halt = none ∧ s.params = params ∧ s.hi = init.hi ∧ s.lo = init.lo ∧
    s.getGpr 0 = 0 ∧ (∀ r : Fin 31, s.getGpr ⟨r.val + 1, by omega⟩ = init.gpr[r.val]) ∧
    (∀ (z : CopId) (r : Reg), s.getCop z r = (init.cop[z.val])[r.val]) ∧ s.Inv ∧
    ∀ a, a < 2 ^ 32 → s.mem.read a = ((init.image.find? fun c => c.1 % 2 ^ 32 == a).map (·.2))

/-- The parameters of R9 are fixed for a run: no step changes them (log 4). -/
def Obligations.EveryStepKeepsParameters : Prop :=
  ∀ s t : State, step s = .next t → t.params = s.params

/-- R316 (D25; log 8): in the state with `halt` none, `pending` none and `pc = END_PC` the run is finished, and the
machine stays in that state. -/
def Obligations.FinishedRunStaysInItsFinalState : Prop :=
  ∀ s : State, s.halt = none → s.pending = none → s.params.endPc = some s.pc → step s = .next s

/-- A word placed where the next fetch reads it is what that fetch reads (the model's own function, log 11). -/
def Obligations.PlacedWordIsFetched : Prop :=
  ∀ (s : State) (w : Nat), s.pc.toNat % 4 = 0 → s.admits s.pc 4 = true →
    (s.withFetchWord 32 w).fetch = .ok (BitVec.ofNat 32 w)

/-! ## Whole-machine rules -/

/-- R32 (D4, D7): every instruction but a jump, a branch or a system call, where it completes, takes the owed redirect or
advances `pc` by 4, and leaves no redirect owed. -/
def Obligations.OtherInstructionsAdvance : Prop :=
  ∀ (i : Instr) (s t : State), isTransfer i = false → i ≠ .syscall → exec i s = .next t → Advanced s t

/-- R33, R34, R250 (D6): each of the ten jumps and branches, in a delay slot, stops with BranchInDelaySlot, whatever its
condition. -/
def Obligations.TransferInDelaySlotStops : Prop :=
  ∀ (i : Instr) (s : State), isTransfer i = true → s.pending ≠ none →
    exec i s = .fault (.branchInDelaySlot s.pc)

/-- R250, R32 (D4): the instruction after a taken jump or branch executes, and then control is at the target. With no hook
and the default SYSCALL_ENTRY: if a step leaves a redirect owed and the next step does not halt, that next step ends with
`pc` at the target and no redirect owed. -/
def Obligations.DelaySlotInstructionThenTarget : Prop :=
  ∀ (s t u : State) (target : Word), s.params.irqHook = .none → s.params.syscallEntry = .unhandled →
    step s = .next t → t.pending = some target → t.halt = none → step t = .next u → u.halt = none →
    u.pc = target ∧ u.pending = none

/-- R271, R280, R286: of all instructions only `div` and `divu` end in the core's fatal output, only with a divisor
register that holds 0, and with their own funct (D15). -/
def Obligations.OnlyDivisionByZeroIsFatal : Prop :=
  ∀ (i : Instr) (s : State) (kind : FatalKind) (level : DispatchLevel) (value : Nat),
    exec i s = .fault (.fatal kind level value) →
    kind = .divideByZero ∧ level = .special ∧
    ∃ rs rt, s.getGpr rt = 0 ∧ (i = .div rs rt ∧ value = 0x1A ∨ i = .divu rs rt ∧ value = 0x1B)

/-- R88: every recognised instruction has a meaning; none is refused. -/
def Obligations.NoInstructionIsRefused : Prop :=
  ∀ (i : Instr) (s : State) (q : Refusal), exec i s ≠ .refused q

/-- R290, R312: no instruction but `mfc`, `mtc`, `rfe` and `syscall` depends on a coprocessor register or writes one:
run with other coprocessor contents, it gives the same outcome with those contents. -/
def Obligations.CoprocessorRegistersSteerNothingElse : Prop :=
  ∀ (i : Instr) (s : State) (c : Vector (Vector Word 32) 4), touchesCop i = false →
    exec i { s with cop := c } = mapNext (fun t => { t with cop := c }) (exec i s)

/-! ## Registers and memory -/

/-- R31 (D2): register 0 reads 0 and a write to it changes nothing; a write to any other register is what it reads
afterwards, and every other register reads as before. -/
def Obligations.RegisterZeroAndReadAfterWrite : Prop :=
  ∀ (s : State) (r : Reg) (v : Word),
    s.getGpr 0 = 0 ∧ s.setGpr 0 v = s ∧ (r ≠ 0 → (s.setGpr r v).getGpr r = v) ∧
    ∀ r', r' ≠ r → (s.setGpr r v).getGpr r' = s.getGpr r'

/-- R50: the memory ports are little-endian, byte i of the value at address a + i with sums mod 2^32, at every address. -/
def Obligations.MemoryPortsAreLittleEndian : Prop :=
  (∀ (s : State) (a : Word) (m : Nat → Byte), HoldsBytes s a 1 m → s.read8 a = .ok (m 0)) ∧
  (∀ (s : State) (a : Word) (m : Nat → Byte), HoldsBytes s a 2 m →
    s.read16 a = .ok (BitVec.ofNat 16 ((m 0).toNat + 2 ^ 8 * (m 1).toNat))) ∧
  (∀ (s : State) (a : Word) (m : Nat → Byte), HoldsBytes s a 4 m →
    s.read32 a = .ok (BitVec.ofNat 32
      ((m 0).toNat + 2 ^ 8 * (m 1).toNat + 2 ^ 16 * (m 2).toNat + 2 ^ 24 * (m 3).toNat))) ∧
  (∀ (s : State) (a : Word) (v : Byte), s.admits a 1 = true →
    ∃ t, s.write8 a v = .ok t ∧ t.pc = s.pc ∧ t.pending = s.pending ∧ StoresBytes s t a 1 (fun _ => v)) ∧
  (∀ (s : State) (a : Word) (v : Half), s.admits a 2 = true →
    ∃ t, s.write16 a v = .ok t ∧ t.pc = s.pc ∧ t.pending = s.pending ∧
      StoresBytes s t a 2 (fun i => BitVec.ofNat 8 (v.toNat / 2 ^ (8 * i)))) ∧
  (∀ (s : State) (a : Word) (v : Word), s.admits a 4 = true →
    ∃ t, s.write32 a v = .ok t ∧ t.pc = s.pc ∧ t.pending = s.pending ∧
      StoresBytes s t a 4 (fun i => BitVec.ofNat 8 (v.toNat / 2 ^ (8 * i))))

/-- R52: a byte or half read inside a word just written sees that part of the word. -/
def Obligations.MixedWidthReadSeesTheSameBytes : Prop :=
  ∀ (s t : State) (a v : Word), s.admits a 4 = true → s.write32 a v = .ok t →
    t.read32 a = .ok v ∧
    (∀ i, i < 4 → t.read8 (a + BitVec.ofNat 32 i) = .ok (BitVec.ofNat 8 (v.toNat / 2 ^ (8 * i)))) ∧
    (∀ j, j < 2 → t.read16 (a + BitVec.ofNat 32 (2 * j)) = .ok (BitVec.ofNat 16 (v.toNat / 2 ^ (16 * j))))

/-- R35 (D10): an access that touches an address outside MEM_MAP stops with BusFault of the address given to the port
(log 13). So do the instructions: a load or store of n bytes whose access leaves MEM_MAP stops with BusFault of its effective
address (R199), and `lwl`, `lwr`, `swl` and `swr` with BusFault of the aligned word address they present (R211). -/
def Obligations.AccessOutsideTheMapIsBusFault : Prop :=
  (∀ (s : State) (a : Word),
    (∀ n, (∃ i, i < n ∧ admittedByte s.params.memMap (a + BitVec.ofNat 32 i) = false) → s.admits a n = false) ∧
    (s.admits a 1 = false → s.read8 a = .error (.busFault a) ∧ ∀ v, s.write8 a v = .error (.busFault a)) ∧
    (s.admits a 2 = false → s.read16 a = .error (.busFault a) ∧ ∀ v, s.write16 a v = .error (.busFault a)) ∧
    (s.admits a 4 = false → s.read32 a = .error (.busFault a) ∧ ∀ v, s.write32 a v = .error (.busFault a))) ∧
  ∀ (s : State) (rt base : Reg) (offset : Half) (ea word : Word), ea = effectiveAddress s base offset →
    word = alignedAddress ea →
    (s.admits ea 1 = false →
      exec (.lb rt base offset) s = .fault (.busFault ea) ∧ exec (.lbu rt base offset) s = .fault (.busFault ea) ∧
      exec (.sb rt base offset) s = .fault (.busFault ea)) ∧
    (s.admits ea 2 = false →
      exec (.lh rt base offset) s = .fault (.busFault ea) ∧ exec (.lhu rt base offset) s = .fault (.busFault ea) ∧
      exec (.sh rt base offset) s = .fault (.busFault ea)) ∧
    (s.admits ea 4 = false →
      exec (.lw rt base offset) s = .fault (.busFault ea) ∧ exec (.sw rt base offset) s = .fault (.busFault ea)) ∧
    (s.admits word 4 = false →
      exec (.lwl rt base offset) s = .fault (.busFault word) ∧ exec (.lwr rt base offset) s = .fault (.busFault word) ∧
      exec (.swl rt base offset) s = .fault (.busFault word) ∧ exec (.swr rt base offset) s = .fault (.busFault word))

/-- The model's choice for R311 and U14 (log 3): reading an admitted byte that nothing has written stops with
`unwrittenRead` of such a byte's address; no value is invented for it. So do the instructions that read: the loads at their
effective address, and `lwl`, `lwr`, `swl` and `swr`, which read the aligned word (R211). -/
def Obligations.ReadOfUnwrittenByteStops : Prop :=
  (∀ (s : State) (a : Word),
    (s.admits a 1 = true → s.mem.read a.toNat = none → s.read8 a = .error (.unwrittenRead a)) ∧
    (s.admits a 2 = true → SomeUnwritten s a 2 →
      ∃ i, i < 2 ∧ s.mem.read (a + BitVec.ofNat 32 i).toNat = none ∧
        s.read16 a = .error (.unwrittenRead (a + BitVec.ofNat 32 i))) ∧
    (s.admits a 4 = true → SomeUnwritten s a 4 →
      ∃ i, i < 4 ∧ s.mem.read (a + BitVec.ofNat 32 i).toNat = none ∧
        s.read32 a = .error (.unwrittenRead (a + BitVec.ofNat 32 i)))) ∧
  ∀ (s : State) (rt base : Reg) (offset : Half) (ea word : Word), ea = effectiveAddress s base offset →
    word = alignedAddress ea →
    (s.admits ea 1 = true → SomeUnwritten s ea 1 →
      StopsAtUnwritten s ea 1 (exec (.lb rt base offset) s) ∧ StopsAtUnwritten s ea 1 (exec (.lbu rt base offset) s)) ∧
    (s.admits ea 2 = true → SomeUnwritten s ea 2 →
      StopsAtUnwritten s ea 2 (exec (.lh rt base offset) s) ∧ StopsAtUnwritten s ea 2 (exec (.lhu rt base offset) s)) ∧
    (s.admits ea 4 = true → SomeUnwritten s ea 4 → StopsAtUnwritten s ea 4 (exec (.lw rt base offset) s)) ∧
    (s.admits word 4 = true → SomeUnwritten s word 4 →
      StopsAtUnwritten s word 4 (exec (.lwl rt base offset) s) ∧
      StopsAtUnwritten s word 4 (exec (.lwr rt base offset) s) ∧
      StopsAtUnwritten s word 4 (exec (.swl rt base offset) s) ∧
      StopsAtUnwritten s word 4 (exec (.swr rt base offset) s))

/-! ## Arithmetic and logic -/

/-- R130, R131: `add` and `addu` write the sum mod 2^32 in every state, with no overflow stop. -/
def Obligations.AddAndAdduWriteTheSum : Prop :=
  EncodedSpecial 0x20#6 (fun w => .add (rdOf w) (rsOf w) (rtOf w)) ∧
  EncodedSpecial 0x21#6 (fun w => .addu (rdOf w) (rsOf w) (rtOf w)) ∧
  ∀ (rd rs rt : Reg) (s : State),
    (∃ t, exec (.add rd rs rt) s = .next t ∧
      WritesGpr s t rd (BitVec.ofNat 32 ((s.getGpr rs).toNat + (s.getGpr rt).toNat))) ∧
    (∃ t, exec (.addu rd rs rt) s = .next t ∧
      WritesGpr s t rd (BitVec.ofNat 32 ((s.getGpr rs).toNat + (s.getGpr rt).toNat)))

/-- R132 (the order rs minus rt is GK2): `subu` writes the difference mod 2^32 in every state. -/
def Obligations.SubuWritesTheDifference : Prop :=
  EncodedSpecial 0x23#6 (fun w => .subu (rdOf w) (rsOf w) (rtOf w)) ∧
  ∀ (rd rs rt : Reg) (s : State), ∃ t, exec (.subu rd rs rt) s = .next t ∧
    WritesGpr s t rd (BitVec.ofInt 32 ((s.getGpr rs).toNat - (s.getGpr rt).toNat))

/-- R133 to R136: `and`, `or`, `xor`, `nor`, bit by bit. -/
def Obligations.BitwiseInstructionsActOnEachBit : Prop :=
  EncodedSpecial 0x24#6 (fun w => .and (rdOf w) (rsOf w) (rtOf w)) ∧
  EncodedSpecial 0x25#6 (fun w => .or (rdOf w) (rsOf w) (rtOf w)) ∧
  EncodedSpecial 0x26#6 (fun w => .xor (rdOf w) (rsOf w) (rtOf w)) ∧
  EncodedSpecial 0x27#6 (fun w => .nor (rdOf w) (rsOf w) (rtOf w)) ∧
  ∀ (rd rs rt : Reg) (s : State),
    (∃ t v, exec (.and rd rs rt) s = .next t ∧ WritesGpr s t rd v ∧
      ∀ i, i < 32 → v.getLsbD i = ((s.getGpr rs).getLsbD i && (s.getGpr rt).getLsbD i)) ∧
    (∃ t v, exec (.or rd rs rt) s = .next t ∧ WritesGpr s t rd v ∧
      ∀ i, i < 32 → v.getLsbD i = ((s.getGpr rs).getLsbD i || (s.getGpr rt).getLsbD i)) ∧
    (∃ t v, exec (.xor rd rs rt) s = .next t ∧ WritesGpr s t rd v ∧
      ∀ i, i < 32 → v.getLsbD i = ((s.getGpr rs).getLsbD i != (s.getGpr rt).getLsbD i)) ∧
    (∃ t v, exec (.nor rd rs rt) s = .next t ∧ WritesGpr s t rd v ∧
      ∀ i, i < 32 → v.getLsbD i = !((s.getGpr rs).getLsbD i || (s.getGpr rt).getLsbD i))

/-- R137, R138: `slt` compares signed, `sltu` unsigned; the result is exactly 0 or 1. -/
def Obligations.SetOnLessThanWritesZeroOrOne : Prop :=
  EncodedSpecial 0x2A#6 (fun w => .slt (rdOf w) (rsOf w) (rtOf w)) ∧
  EncodedSpecial 0x2B#6 (fun w => .sltu (rdOf w) (rsOf w) (rtOf w)) ∧
  ∀ (rd rs rt : Reg) (s : State),
    (∃ t, exec (.slt rd rs rt) s = .next t ∧
      WritesGpr s t rd (if (s.getGpr rs).toInt < (s.getGpr rt).toInt then 1 else 0)) ∧
    (∃ t, exec (.sltu rd rs rt) s = .next t ∧
      WritesGpr s t rd (if (s.getGpr rs).toNat < (s.getGpr rt).toNat then 1 else 0))

/-- R141, R142: `addiu` adds and `slti` compares signed with the sign-extended immediate. -/
def Obligations.AddiuAndSltiSignExtend : Prop :=
  EncodedPrimary 0x09#6 (fun w => .addiu (rtOf w) (rsOf w) (immOf w)) ∧
  EncodedPrimary 0x0A#6 (fun w => .slti (rtOf w) (rsOf w) (immOf w)) ∧
  ∀ (rt rs : Reg) (imm : Half) (s : State),
    (∃ t, exec (.addiu rt rs imm) s = .next t ∧
      WritesGpr s t rt (BitVec.ofInt 32 ((s.getGpr rs).toInt + imm.toInt))) ∧
    (∃ t, exec (.slti rt rs imm) s = .next t ∧
      WritesGpr s t rt (if (s.getGpr rs).toInt < imm.toInt then 1 else 0))

/-- R140 (an inference the spec marks as its own): `addi` is the same non-trapping sum as `addiu`. -/
def Obligations.AddiNeverTraps : Prop :=
  EncodedPrimary 0x08#6 (fun w => .addi (rtOf w) (rsOf w) (immOf w)) ∧
  ∀ (rt rs : Reg) (imm : Half) (s : State), ∃ t, exec (.addi rt rs imm) s = .next t ∧
    WritesGpr s t rt (BitVec.ofInt 32 ((s.getGpr rs).toInt + imm.toInt))

/-- R143 (C1, D27): `sltiu` compares unsigned with the zero-extended immediate. -/
def Obligations.SltiuZeroExtends : Prop :=
  EncodedPrimary 0x0B#6 (fun w => .sltiu (rtOf w) (rsOf w) (immOf w)) ∧
  ∀ (rt rs : Reg) (imm : Half) (s : State), ∃ t, exec (.sltiu rt rs imm) s = .next t ∧
    WritesGpr s t rt (if (s.getGpr rs).toNat < imm.toNat then 1 else 0)

/-- R144 to R146: `andi` and `ori` with the zero-extended immediate, bit by bit; `lui` places it high, whatever the `rs`
field holds. -/
def Obligations.AndiOriLuiZeroExtend : Prop :=
  EncodedPrimary 0x0C#6 (fun w => .andi (rtOf w) (rsOf w) (immOf w)) ∧
  EncodedPrimary 0x0D#6 (fun w => .ori (rtOf w) (rsOf w) (immOf w)) ∧
  EncodedPrimary 0x0F#6 (fun w => .lui (rtOf w) (immOf w)) ∧
  ∀ (rt rs : Reg) (imm : Half) (s : State),
    (∃ t v, exec (.andi rt rs imm) s = .next t ∧ WritesGpr s t rt v ∧
      ∀ i, i < 32 → v.getLsbD i = ((s.getGpr rs).getLsbD i && (decide (i < 16) && imm.getLsbD i))) ∧
    (∃ t v, exec (.ori rt rs imm) s = .next t ∧ WritesGpr s t rt v ∧
      ∀ i, i < 32 → v.getLsbD i = ((s.getGpr rs).getLsbD i || (decide (i < 16) && imm.getLsbD i))) ∧
    (∃ t, exec (.lui rt imm) s = .next t ∧ WritesGpr s t rt (BitVec.ofNat 32 (2 ^ 16 * imm.toNat)))

/-- R160 to R162 (the operand roles are GK2): `sll` multiplies by, `srl` divides unsigned by and `sra` floors the signed
quotient by the power of two. -/
def Obligations.FixedShiftsScaleByPowersOfTwo : Prop :=
  EncodedSpecial 0x00#6 (fun w => .sll (rdOf w) (rtOf w) (shamtOf w)) ∧
  EncodedSpecial 0x02#6 (fun w => .srl (rdOf w) (rtOf w) (shamtOf w)) ∧
  EncodedSpecial 0x03#6 (fun w => .sra (rdOf w) (rtOf w) (shamtOf w)) ∧
  ∀ (rd rt : Reg) (shamt : Nat) (s : State),
    (∃ t, exec (.sll rd rt shamt) s = .next t ∧
      WritesGpr s t rd (BitVec.ofNat 32 ((s.getGpr rt).toNat * 2 ^ shamt))) ∧
    (∃ t, exec (.srl rd rt shamt) s = .next t ∧
      WritesGpr s t rd (BitVec.ofNat 32 ((s.getGpr rt).toNat / 2 ^ shamt))) ∧
    (∃ t, exec (.sra rd rt shamt) s = .next t ∧
      WritesGpr s t rd (BitVec.ofInt 32 ((s.getGpr rt).toInt / 2 ^ shamt)))

/-- R163 to R166 (the operand roles are GK2): the variable shifts take their amount mod 32. -/
def Obligations.VariableShiftsTakeTheAmountModulo32 : Prop :=
  EncodedSpecial 0x04#6 (fun w => .sllv (rdOf w) (rtOf w) (rsOf w)) ∧
  EncodedSpecial 0x06#6 (fun w => .srlv (rdOf w) (rtOf w) (rsOf w)) ∧
  EncodedSpecial 0x07#6 (fun w => .srav (rdOf w) (rtOf w) (rsOf w)) ∧
  ∀ (rd rt rs : Reg) (s : State),
    (∃ t, exec (.sllv rd rt rs) s = .next t ∧
      WritesGpr s t rd (BitVec.ofNat 32 ((s.getGpr rt).toNat * 2 ^ ((s.getGpr rs).toNat % 32)))) ∧
    (∃ t, exec (.srlv rd rt rs) s = .next t ∧
      WritesGpr s t rd (BitVec.ofNat 32 ((s.getGpr rt).toNat / 2 ^ ((s.getGpr rs).toNat % 32)))) ∧
    (∃ t, exec (.srav rd rt rs) s = .next t ∧
      WritesGpr s t rd (BitVec.ofInt 32 ((s.getGpr rt).toInt / 2 ^ ((s.getGpr rs).toNat % 32))))

/-! ## Multiply, divide, HI and LO -/

/-- R170: `multu` leaves the exact 64-bit unsigned product in HI and LO and writes no general register. -/
def Obligations.MultuGivesTheExactProduct : Prop :=
  EncodedSpecial 0x19#6 (fun w => .multu (rsOf w) (rtOf w)) ∧
  ∀ (rs rt : Reg) (s : State), ∃ t hi lo, exec (.multu rs rt) s = .next t ∧ WritesHiLo s t hi lo ∧
    hi.toNat * 2 ^ 32 + lo.toNat = (s.getGpr rs).toNat * (s.getGpr rt).toNat

/-- R171, R178 (D13, D14, GK2): with a nonzero divisor, `div` writes a quotient and a remainder with n = q * d + r,
|r| < |d| and r zero or of the sign of n, LO and HI being those numbers mod 2^32; -2^31 / -1 included. -/
def Obligations.DivTruncatesTowardZero : Prop :=
  EncodedSpecial 0x1A#6 (fun w => .div (rsOf w) (rtOf w)) ∧
  ∀ (rs rt : Reg) (s : State), s.getGpr rt ≠ 0 →
    ∃ t, ∃ q r : Int, exec (.div rs rt) s = .next t ∧ WritesHiLo s t (BitVec.ofInt 32 r) (BitVec.ofInt 32 q) ∧
      (s.getGpr rs).toInt = q * (s.getGpr rt).toInt + r ∧ |r| < |(s.getGpr rt).toInt| ∧
      0 ≤ r * (s.getGpr rs).toInt

/-- R172, R178 (GK2): with a nonzero divisor, `divu` writes the unsigned quotient to LO and the remainder, below the
divisor, to HI. -/
def Obligations.DivuGivesQuotientAndRemainder : Prop :=
  EncodedSpecial 0x1B#6 (fun w => .divu (rsOf w) (rtOf w)) ∧
  ∀ (rs rt : Reg) (s : State), s.getGpr rt ≠ 0 →
    ∃ t hi lo, exec (.divu rs rt) s = .next t ∧ WritesHiLo s t hi lo ∧
      (s.getGpr rs).toNat = lo.toNat * (s.getGpr rt).toNat + hi.toNat ∧ hi.toNat < (s.getGpr rt).toNat

/-- R179, R274 (the triple is D15): division by zero is fatal, whatever the dividend. -/
def Obligations.DivisionByZeroStops : Prop :=
  ∀ (rs rt : Reg) (s : State), s.getGpr rt = 0 →
    exec (.div rs rt) s = .fault (.fatal .divideByZero .special 0x1A) ∧
    exec (.divu rs rt) s = .fault (.fatal .divideByZero .special 0x1B)

/-- R173, R174: `mfhi` and `mflo` copy the accumulator into a general register and leave HI and LO unchanged. -/
def Obligations.MfhiAndMfloCopyTheAccumulator : Prop :=
  EncodedSpecial 0x10#6 (fun w => .mfhi (rdOf w)) ∧ EncodedSpecial 0x12#6 (fun w => .mflo (rdOf w)) ∧
  ∀ (rd : Reg) (s : State),
    (∃ t, exec (.mfhi rd) s = .next t ∧ WritesGpr s t rd s.hi) ∧
    (∃ t, exec (.mflo rd) s = .next t ∧ WritesGpr s t rd s.lo)

/-- R175, R176 (the source field is GK2): `mthi` and `mtlo` copy a general register into one accumulator and leave the
other unchanged. -/
def Obligations.MthiAndMtloWriteOneAccumulator : Prop :=
  EncodedSpecial 0x11#6 (fun w => .mthi (rsOf w)) ∧ EncodedSpecial 0x13#6 (fun w => .mtlo (rsOf w)) ∧
  ∀ (rs : Reg) (s : State),
    (∃ t, exec (.mthi rs) s = .next t ∧ WritesHiLo s t (s.getGpr rs) s.lo) ∧
    (∃ t, exec (.mtlo rs) s = .next t ∧ WritesHiLo s t s.hi (s.getGpr rs))

/-! ## Loads and stores -/

/-- R190, R61: the effective address is the base plus the sign-extended displacement, mod 2^32. -/
def Obligations.EffectiveAddressWraps : Prop :=
  ∀ (s : State) (base : Reg) (offset : Half),
    effectiveAddress s base offset = BitVec.ofInt 32 ((s.getGpr base).toNat + offset.toInt) ∧
    (alignedAddress (effectiveAddress s base offset)).toNat = (effectiveAddress s base offset).toNat / 4 * 4 ∧
    (byteOffset (effectiveAddress s base offset)).val = (effectiveAddress s base offset).toNat % 4

/-- R191, R192: `lb` and `lbu`, where the byte at the effective address is admitted and written. -/
def Obligations.LoadByteExtends : Prop :=
  EncodedPrimary 0x20#6 (fun w => .lb (rtOf w) (rsOf w) (immOf w)) ∧
  EncodedPrimary 0x24#6 (fun w => .lbu (rtOf w) (rsOf w) (immOf w)) ∧
  ∀ (rt base : Reg) (offset : Half) (s : State) (m : Nat → Byte),
    HoldsBytes s (effectiveAddress s base offset) 1 m →
    (∃ t, exec (.lb rt base offset) s = .next t ∧
      WritesGpr s t rt (BitVec.ofInt 32 (if (m 0).toNat < 128 then (m 0).toNat else (m 0).toNat - 256))) ∧
    (∃ t, exec (.lbu rt base offset) s = .next t ∧ WritesGpr s t rt (BitVec.ofNat 32 (m 0).toNat))

/-- R193 to R195: `lh`, `lhu` and `lw` at any address, aligned or not (D9), where the bytes are admitted and written. -/
def Obligations.LoadHalfAndWordAreLittleEndian : Prop :=
  EncodedPrimary 0x21#6 (fun w => .lh (rtOf w) (rsOf w) (immOf w)) ∧
  EncodedPrimary 0x25#6 (fun w => .lhu (rtOf w) (rsOf w) (immOf w)) ∧
  EncodedPrimary 0x23#6 (fun w => .lw (rtOf w) (rsOf w) (immOf w)) ∧
  ∀ (rt base : Reg) (offset : Half) (s : State) (m : Nat → Byte),
    (HoldsBytes s (effectiveAddress s base offset) 2 m →
      (∃ t, exec (.lh rt base offset) s = .next t ∧
        WritesGpr s t rt (BitVec.ofInt 32
          (if (m 1).toNat < 128 then (m 0).toNat + 2 ^ 8 * (m 1).toNat
            else (m 0).toNat + 2 ^ 8 * (m 1).toNat - 2 ^ 16))) ∧
      (∃ t, exec (.lhu rt base offset) s = .next t ∧
        WritesGpr s t rt (BitVec.ofNat 32 ((m 0).toNat + 2 ^ 8 * (m 1).toNat)))) ∧
    (HoldsBytes s (effectiveAddress s base offset) 4 m →
      ∃ t, exec (.lw rt base offset) s = .next t ∧
        WritesGpr s t rt (BitVec.ofNat 32
          ((m 0).toNat + 2 ^ 8 * (m 1).toNat + 2 ^ 16 * (m 2).toNat + 2 ^ 24 * (m 3).toNat)))

/-- R196 to R198 (D9, D30): `sb`, `sh` and `sw` store the low byte, the low half and the word of `rt`, byte i at the
effective address plus i, where those bytes are admitted. -/
def Obligations.StoresWriteTheLowBytes : Prop :=
  EncodedPrimary 0x28#6 (fun w => .sb (rtOf w) (rsOf w) (immOf w)) ∧
  EncodedPrimary 0x29#6 (fun w => .sh (rtOf w) (rsOf w) (immOf w)) ∧
  EncodedPrimary 0x2B#6 (fun w => .sw (rtOf w) (rsOf w) (immOf w)) ∧
  ∀ (rt base : Reg) (offset : Half) (s : State),
    (s.admits (effectiveAddress s base offset) 1 = true → ∃ t, exec (.sb rt base offset) s = .next t ∧
      StoresBytes s t (effectiveAddress s base offset) 1 (fun i => BitVec.ofNat 8 ((s.getGpr rt).toNat / 2 ^ (8 * i)))) ∧
    (s.admits (effectiveAddress s base offset) 2 = true → ∃ t, exec (.sh rt base offset) s = .next t ∧
      StoresBytes s t (effectiveAddress s base offset) 2 (fun i => BitVec.ofNat 8 ((s.getGpr rt).toNat / 2 ^ (8 * i)))) ∧
    (s.admits (effectiveAddress s base offset) 4 = true → ∃ t, exec (.sw rt base offset) s = .next t ∧
      StoresBytes s t (effectiveAddress s base offset) 4 (fun i => BitVec.ofNat 8 ((s.getGpr rt).toNat / 2 ^ (8 * i))))

/-- R212, R213 (GK3), byte by byte: with k the low two bits of the effective address and the aligned word readable, `lwl`
puts the word's bytes 0 to k in the k + 1 most significant bytes of `rt`, `lwr` puts the bytes k to 3 in the 4 - k least
significant ones; the other bytes of `rt` keep their value. -/
def Obligations.PartialLoadsMergeBytes : Prop :=
  EncodedPrimary 0x22#6 (fun w => .lwl (rtOf w) (rsOf w) (immOf w)) ∧
  EncodedPrimary 0x26#6 (fun w => .lwr (rtOf w) (rsOf w) (immOf w)) ∧
  ∀ (rt base : Reg) (offset : Half) (s : State) (m : Nat → Byte) (k : Nat),
    k = (effectiveAddress s base offset).toNat % 4 →
    HoldsBytes s (alignedAddress (effectiveAddress s base offset)) 4 m →
    (∃ t v, exec (.lwl rt base offset) s = .next t ∧ WritesGpr s t rt v ∧
      ∀ j, j < 4 → byteOfWord v j = if 3 ≤ j + k then m (j + k - 3) else byteOfWord (s.getGpr rt) j) ∧
    (∃ t v, exec (.lwr rt base offset) s = .next t ∧ WritesGpr s t rt v ∧
      ∀ j, j < 4 → byteOfWord v j = if j + k ≤ 3 then m (j + k) else byteOfWord (s.getGpr rt) j)

/-- R214, R215 (GK3), byte by byte: `swl` stores the k + 1 most significant bytes of `rt` to the word's bytes 0 to k,
`swr` the 4 - k least significant ones to the bytes k to 3; the word's other bytes and all other memory keep their
value. -/
def Obligations.PartialStoresMergeBytes : Prop :=
  EncodedPrimary 0x2A#6 (fun w => .swl (rtOf w) (rsOf w) (immOf w)) ∧
  EncodedPrimary 0x2E#6 (fun w => .swr (rtOf w) (rsOf w) (immOf w)) ∧
  ∀ (rt base : Reg) (offset : Half) (s : State) (m : Nat → Byte) (k : Nat),
    k = (effectiveAddress s base offset).toNat % 4 →
    HoldsBytes s (alignedAddress (effectiveAddress s base offset)) 4 m →
    (∃ t, exec (.swl rt base offset) s = .next t ∧
      StoresBytes s t (alignedAddress (effectiveAddress s base offset)) 4
        (fun i => if i ≤ k then byteOfWord (s.getGpr rt) (i + 3 - k) else m i)) ∧
    (∃ t, exec (.swr rt base offset) s = .next t ∧
      StoresBytes s t (alignedAddress (effectiveAddress s base offset)) 4
        (fun i => if k ≤ i then byteOfWord (s.getGpr rt) (i - k) else m i))

/-- R216: `swl` at X + 3 and `swr` at X, in either order, write the four bytes at X to X + 3 as an unaligned word store of
`rt` would and change no other byte, for every X whose two aligned words are readable. -/
def Obligations.StorePairWritesTheUnalignedWord : Prop :=
  ∀ (rt b1 b2 : Reg) (o1 o2 : Half) (s : State) (X : Word) (m1 m2 : Nat → Byte),
    effectiveAddress s b1 o1 = X + 3 → effectiveAddress s b2 o2 = X →
    HoldsBytes s (alignedAddress (X + 3)) 4 m1 → HoldsBytes s (alignedAddress X) 4 m2 →
    (∃ t u, exec (.swl rt b1 o1) s = .next t ∧ exec (.swr rt b2 o2) t = .next u ∧
      StoresBytes s u X 4 (byteOfWord (s.getGpr rt))) ∧
    (∃ t u, exec (.swr rt b2 o2) s = .next t ∧ exec (.swl rt b1 o1) t = .next u ∧
      StoresBytes s u X 4 (byteOfWord (s.getGpr rt)))

/-- R216: `lwl` at X + 3 and `lwr` at X, in either order, leave in `rt` the little-endian word at X to X + 3, whatever
`rt` held, and change nothing else; the address of the second instruction is the one it has after the first, which may
have overwritten its base. -/
def Obligations.LoadPairReadsTheUnalignedWord : Prop :=
  ∀ (rt b1 b2 : Reg) (o1 o2 : Half) (s : State) (X : Word) (m m1 m2 : Nat → Byte),
    HoldsBytes s X 4 m → HoldsBytes s (alignedAddress (X + 3)) 4 m1 → HoldsBytes s (alignedAddress X) 4 m2 →
    (effectiveAddress s b1 o1 = X + 3 → ∃ t, exec (.lwl rt b1 o1) s = .next t ∧
      (effectiveAddress t b2 o2 = X → ∃ u, exec (.lwr rt b2 o2) t = .next u ∧
        WritesGpr s u rt (wordOfBytes (m 0) (m 1) (m 2) (m 3)))) ∧
    (effectiveAddress s b2 o2 = X → ∃ t, exec (.lwr rt b2 o2) s = .next t ∧
      (effectiveAddress t b1 o1 = X + 3 → ∃ u, exec (.lwl rt b1 o1) t = .next u ∧
        WritesGpr s u rt (wordOfBytes (m 0) (m 1) (m 2) (m 3))))

/-! ## Jumps and branches -/

/-- R230, R232, R233, R234 (D4, D12, D32, GK2), outside a delay slot: the redirect is owed with the target of R87 or the
register's old value, `pc` advances to the delay slot, and the link register, if any, holds PC + 8. -/
def Obligations.JumpsOweTheirTarget : Prop :=
  EncodedPrimary 0x02#6 (fun w => .j (targetOf w)) ∧ EncodedPrimary 0x03#6 (fun w => .jal (targetOf w)) ∧
  EncodedSpecial 0x08#6 (fun w => .jr (rsOf w)) ∧ EncodedSpecial 0x09#6 (fun w => .jalr (rdOf w) (rsOf w)) ∧
  ∀ (s : State) (target : BitVec 26) (rs rd : Reg), s.pending = none →
    (∃ t, exec (.j target) s = .next t ∧ OnlyControl s t ∧ t.pc = s.pc + 4 ∧
      t.pending = some (BitVec.ofNat 32 ((s.pc + 4).toNat / 2 ^ 28 * 2 ^ 28 + 4 * target.toNat))) ∧
    (∃ t, exec (.jal target) s = .next t ∧ WritesGpr s t 31 (s.pc + 8) ∧ t.pc = s.pc + 4 ∧
      t.pending = some (BitVec.ofNat 32 ((s.pc + 4).toNat / 2 ^ 28 * 2 ^ 28 + 4 * target.toNat))) ∧
    (∃ t, exec (.jr rs) s = .next t ∧ OnlyControl s t ∧ t.pc = s.pc + 4 ∧ t.pending = some (s.getGpr rs)) ∧
    (∃ t, exec (.jalr rd rs) s = .next t ∧ WritesGpr s t rd (s.pc + 8) ∧ t.pc = s.pc + 4 ∧
      t.pending = some (s.getGpr rs))

/-- R240 to R246 with R34 (D4, D5, GK2, GK4), outside a delay slot: where the condition holds, the redirect to PC + 4 plus
four times the signed offset is owed, otherwise none; `pc` advances to the delay slot either way; nothing else
changes. -/
def Obligations.BranchesOweTheirTargetWhenTaken : Prop :=
  EncodedPrimary 0x04#6 (fun w => .beq (rsOf w) (rtOf w) (immOf w)) ∧
  EncodedPrimary 0x05#6 (fun w => .bne (rsOf w) (rtOf w) (immOf w)) ∧
  EncodedPrimary 0x06#6 (fun w => .blez (rsOf w) (immOf w)) ∧ EncodedPrimary 0x07#6 (fun w => .bgtz (rsOf w) (immOf w)) ∧
  EncodedRegimm 0x00#5 (fun w => .bltz (rsOf w) (immOf w)) ∧ EncodedRegimm 0x01#5 (fun w => .bgez (rsOf w) (immOf w)) ∧
  ∀ (s : State) (rs rt : Reg) (offset : Half) (target : Word), s.pending = none →
    target = BitVec.ofInt 32 (s.pc.toNat + 4 + 4 * offset.toInt) →
    (∃ t, exec (.beq rs rt offset) s = .next t ∧ OnlyControl s t ∧ t.pc = s.pc + 4 ∧
      t.pending = if (s.getGpr rs).toNat = (s.getGpr rt).toNat then some target else none) ∧
    (∃ t, exec (.bne rs rt offset) s = .next t ∧ OnlyControl s t ∧ t.pc = s.pc + 4 ∧
      t.pending = if (s.getGpr rs).toNat = (s.getGpr rt).toNat then none else some target) ∧
    (∃ t, exec (.blez rs offset) s = .next t ∧ OnlyControl s t ∧ t.pc = s.pc + 4 ∧
      t.pending = if (s.getGpr rs).toInt ≤ 0 then some target else none) ∧
    (∃ t, exec (.bgtz rs offset) s = .next t ∧ OnlyControl s t ∧ t.pc = s.pc + 4 ∧
      t.pending = if 0 < (s.getGpr rs).toInt then some target else none) ∧
    (∃ t, exec (.bltz rs offset) s = .next t ∧ OnlyControl s t ∧ t.pc = s.pc + 4 ∧
      t.pending = if (s.getGpr rs).getLsbD 31 then some target else none) ∧
    (∃ t, exec (.bgez rs offset) s = .next t ∧ OnlyControl s t ∧ t.pc = s.pc + 4 ∧
      t.pending = if (s.getGpr rs).getLsbD 31 then none else some target)

/-! ## Coprocessors, system call, return -/

/-- R260, R36 (D16, D17, GK2): `mfc`, for every coprocessor and in every state, writes COP_READ of the coprocessor register
to the general register; by default that is the register's stored value. -/
def Obligations.MfcReadsTheCoprocessorRegister : Prop :=
  EncodedCop 0x00#5 (fun w => .mfc (copIdOf w) (rtOf w) (rdOf w)) ∧
  ∀ (z : CopId) (rt rd : Reg) (s : State),
    (s.params.copRead = .plain → ∃ t, exec (.mfc z rt rd) s = .next t ∧ WritesGpr s t rt (s.getCop z rd)) ∧
    (s.params.copRead = .platform → ∃ t, exec (.mfc z rt rd) s = .next t ∧
      WritesGpr s t rt (Config.copRead z rd (s.getCop z rd)))

/-- R261, R36 (D16, D17, GK2): `mtc`, for every coprocessor and in every state, writes COP_WRITE of the general register to
the coprocessor register and to no other; by default that is the register's value. -/
def Obligations.MtcWritesTheCoprocessorRegister : Prop :=
  EncodedCop 0x04#5 (fun w => .mtc (copIdOf w) (rtOf w) (rdOf w)) ∧
  ∀ (z : CopId) (rt rd : Reg) (s : State),
    (s.params.copWrite = .plain → ∃ t, exec (.mtc z rt rd) s = .next t ∧ WritesCop s t z rd (s.getGpr rt)) ∧
    (s.params.copWrite = .platform → ∃ t, exec (.mtc z rt rd) s = .next t ∧
      WritesCop s t z rd (Config.copWrite z rd (s.getGpr rt)))

/-- R262, R37, R294, R296 (D16, D19, GK7; log 5, 6): `rfe` completes in every state and the program counter only advances;
by default it changes nothing else; under the R3000A instance it pops Status[5:2] into Status[3:0] and keeps every other
bit; on a platform it replaces the registers of coprocessor 0 by RFE_EFFECT's, which sees the redirect still owed by the
model's choice (log 19). -/
def Obligations.RfeAppliesItsEffect : Prop :=
  (∀ w : Word, w.extractLsb' 21 11 = 0b01000010000#11 → decode w = .instr .rfe) ∧
  ∀ s : State, ∃ t, exec .rfe s = .next t ∧ Advanced s t ∧
    (s.params.rfeEffect = .identity → OnlyControl s t) ∧
    (s.params.rfeEffect = .r3000a → ∃ v, WritesCop s t 0 12 v ∧
      ∀ i, i < 32 → v.getLsbD i = (s.getCop 0 12).getLsbD (if i < 4 then i + 2 else i)) ∧
    (s.params.rfeEffect = .platform → OnlyEntryState s t ∧
      ∀ r : Reg, t.getCop 0 r = (Config.rfeEffect s.snapshot)[r.val])

/-- R270, R38 (D18): `syscall`, whatever its ignored bits, under the default SYSCALL_ENTRY stops with
UnhandledSyscall(pc). -/
def Obligations.SyscallIsUnhandledByDefault : Prop :=
  EncodedSpecial 0x0C#6 (fun _ => .syscall) ∧
  ∀ s : State, s.params.syscallEntry = .unhandled → exec .syscall s = .fault (.unhandledSyscall s.pc)

/-- R295 (GK7, the spec's information; log 6): under the R3000A instance `syscall` saves the restart address in EPC and the
slot in Cause.BD, writes ExcCode 8, pushes the Status stack, abandons the owed redirect and goes to the vector BEV
selects; nothing else changes. -/
def Obligations.SyscallEntersTheR3000aHandler : Prop :=
  ∀ s : State, s.params.syscallEntry = .r3000a →
    ∃ t, exec .syscall s = .next t ∧ OnlyEntryState s t ∧ t.pending = none ∧
      t.pc = (if (s.getCop 0 12).getLsbD 22 then 0xBFC00180#32 else 0x80000080#32) ∧
      t.getCop 0 14 = (if s.pending = none then s.pc else BitVec.ofInt 32 (s.pc.toNat - 4)) ∧
      (∀ i, i < 32 → (t.getCop 0 13).getLsbD i =
        if i = 31 then s.pending.isSome
        else if 2 ≤ i ∧ i ≤ 6 then decide (i = 5)
        else (s.getCop 0 13).getLsbD i) ∧
      (∀ i, i < 32 → (t.getCop 0 12).getLsbD i =
        if i < 2 then false else if i < 6 then (s.getCop 0 12).getLsbD (i - 2) else (s.getCop 0 12).getLsbD i) ∧
      ∀ r, r ≠ 12 → r ≠ 13 → r ≠ 14 → t.getCop 0 r = s.getCop 0 r

/-- R293 (D18, D33; log 5): under a platform's SYSCALL_ENTRY `syscall` completes, abandons the owed redirect, takes its
`pc` and the registers of coprocessor 0 from that function of the state, and changes nothing else. -/
def Obligations.SyscallAppliesThePlatformEntry : Prop :=
  ∀ s : State, s.params.syscallEntry = .platform →
    ∃ t, exec .syscall s = .next t ∧ OnlyEntryState s t ∧ t.pending = none ∧
      t.pc = (Config.syscallEntry s.snapshot).1 ∧
      ∀ r : Reg, t.getCop 0 r = (Config.syscallEntry s.snapshot).2[r.val]

/-! ## The interrupt hook -/

/-- R298 (D20), for a platform's IRQ_HOOK: the machine goes on in the state the hook returns. Every register is the hook's;
from a canonical memory, memory is the hook's, byte by byte, and canonical; `halt` and the parameters stay. Where the hook
acts, that is, returns another state than it was given, while a redirect is owed, the redirect is abandoned; otherwise the
redirect is the hook's. The abandoned redirect, the first of two cells at one address, addresses mod 2^32, the bytes kept
outside MEM_MAP and the canonical form are the model's choice (log 7). -/
def Obligations.InterruptHookTakesThePlatformsState : Prop :=
  ∀ s : State, s.params.irqHook = .platform →
    let r := Config.irqHook s.snapshot
    let t := s.interruptHook
    t.gpr = r.gpr ∧ t.pc = r.pc ∧ t.hi = r.hi ∧ t.lo = r.lo ∧ t.cop = r.cop ∧
    (s.Inv → t.Inv ∧ ∀ a, a < 2 ^ 32 → t.mem.read a = ((r.mem.find? fun c => c.1 % 2 ^ 32 == a).map (·.2))) ∧
    t.pending = (if r ≠ s.snapshot ∧ s.pending.isSome then none else r.pending) ∧
    t.halt = s.halt ∧ t.params = s.params
end

