-- ==== Sys2Proof/Laws/Decode.lean ====
section
/-! SUPPORT. The fields of the encoder's formats (30_encoding.md R81 to R85), each field read back from the word that was
built with it. -/

namespace Sys2Proof

/-! ### Fields of a concatenation -/

/-- The low part of a concatenation. -/
theorem extractLsb'_low {h l : Nat} (x : BitVec h) (z : BitVec l) :
    (x ++ z : BitVec (h + l)).extractLsb' 0 l = z := by
  apply BitVec.eq_of_getLsbD_eq
  intro i hi
  simp [hi, BitVec.getLsbD_append]

/-- The high part of a concatenation. -/
theorem extractLsb'_high {h l : Nat} (x : BitVec h) (z : BitVec l) :
    (x ++ z : BitVec (h + l)).extractLsb' l h = x := by
  apply BitVec.eq_of_getLsbD_eq
  intro i hi
  simp [hi, BitVec.getLsbD_append]

/-- A field above the low part of a concatenation is a field of the high part. -/
theorem extractLsb'_skip {h l : Nat} (k m : Nat) (x : BitVec h) (z : BitVec l) :
    (x ++ z : BitVec (h + l)).extractLsb' (l + k) m = x.extractLsb' k m := by
  apply BitVec.eq_of_getLsbD_eq
  intro i hi
  simp [hi, BitVec.getLsbD_append, Nat.add_assoc]

@[simp] theorem regOfBits_bitsOfReg (r : Reg) : regOfBits (bitsOfReg r) = r := by
  apply Fin.ext
  simp [regOfBits, bitsOfReg]

/-! ### Format R (R82) -/

section
variable (rs rt rd : Reg) (shamt : Nat) (funct : BitVec 6)

@[simp] theorem functOf_encodeR : functOf (encodeR rs rt rd shamt funct) = funct := extractLsb'_low _ _

@[simp] theorem shamtBits_encodeR : shamtBits (encodeR rs rt rd shamt funct) = BitVec.ofNat 5 shamt :=
  (extractLsb'_skip (l := 6) 0 5 _ _).trans (extractLsb'_low _ _)

@[simp] theorem rdBits_encodeR : rdBits (encodeR rs rt rd shamt funct) = bitsOfReg rd :=
  (extractLsb'_skip (l := 6) 5 5 _ _).trans ((extractLsb'_skip (l := 5) 0 5 _ _).trans (extractLsb'_low _ _))

@[simp] theorem rtBits_encodeR : rtBits (encodeR rs rt rd shamt funct) = bitsOfReg rt :=
  (extractLsb'_skip (l := 6) 10 5 _ _).trans ((extractLsb'_skip (l := 5) 5 5 _ _).trans
    ((extractLsb'_skip (l := 5) 0 5 _ _).trans (extractLsb'_low _ _)))

@[simp] theorem rsBits_encodeR : rsBits (encodeR rs rt rd shamt funct) = bitsOfReg rs :=
  (extractLsb'_skip (l := 6) 15 5 _ _).trans ((extractLsb'_skip (l := 5) 10 5 _ _).trans
    ((extractLsb'_skip (l := 5) 5 5 _ _).trans ((extractLsb'_skip (l := 5) 0 5 _ _).trans (extractLsb'_low _ _))))

@[simp] theorem opcodeOf_encodeR : opcodeOf (encodeR rs rt rd shamt funct) = 0 :=
  (extractLsb'_skip (l := 6) 20 6 _ _).trans ((extractLsb'_skip (l := 5) 15 6 _ _).trans
    ((extractLsb'_skip (l := 5) 10 6 _ _).trans ((extractLsb'_skip (l := 5) 5 6 _ _).trans (extractLsb'_high _ _))))

end

/-! ### Format I (R83) -/

section
variable (opcode : BitVec 6) (rs rt : Reg) (imm : Half)

@[simp] theorem immOf_encodeI : immOf (encodeI opcode rs rt imm) = imm := extractLsb'_low _ _

@[simp] theorem rtBits_encodeI : rtBits (encodeI opcode rs rt imm) = bitsOfReg rt :=
  (extractLsb'_skip (l := 16) 0 5 _ _).trans (extractLsb'_low _ _)

@[simp] theorem rsBits_encodeI : rsBits (encodeI opcode rs rt imm) = bitsOfReg rs :=
  (extractLsb'_skip (l := 16) 5 5 _ _).trans ((extractLsb'_skip (l := 5) 0 5 _ _).trans (extractLsb'_low _ _))

@[simp] theorem opcodeOf_encodeI : opcodeOf (encodeI opcode rs rt imm) = opcode :=
  (extractLsb'_skip (l := 16) 10 6 _ _).trans ((extractLsb'_skip (l := 5) 5 6 _ _).trans (extractLsb'_high _ _))

end

/-! ### Format J (R84) -/

section
variable (opcode : BitVec 6) (target : BitVec 26)

@[simp] theorem targetOf_encodeJ : targetOf (encodeJ opcode target) = target := extractLsb'_low _ _

@[simp] theorem opcodeOf_encodeJ : opcodeOf (encodeJ opcode target) = opcode := extractLsb'_high _ _

end

/-! ### Format COP (R85) -/

section
variable (z : CopId) (sub : BitVec 5) (rt rd : Reg) (low : BitVec 11)

@[simp] theorem rdBits_encodeCop : rdBits (encodeCop z sub rt rd low) = bitsOfReg rd :=
  (extractLsb'_skip (l := 11) 0 5 _ _).trans (extractLsb'_low _ _)

@[simp] theorem rtBits_encodeCop : rtBits (encodeCop z sub rt rd low) = bitsOfReg rt :=
  (extractLsb'_skip (l := 11) 5 5 _ _).trans ((extractLsb'_skip (l := 5) 0 5 _ _).trans (extractLsb'_low _ _))

@[simp] theorem rsBits_encodeCop : rsBits (encodeCop z sub rt rd low) = sub :=
  (extractLsb'_skip (l := 11) 10 5 _ _).trans ((extractLsb'_skip (l := 5) 5 5 _ _).trans
    ((extractLsb'_skip (l := 5) 0 5 _ _).trans (extractLsb'_low _ _)))

@[simp] theorem copIdBits_encodeCop : copIdBits (encodeCop z sub rt rd low) = BitVec.ofNat 2 z.val :=
  (extractLsb'_skip (l := 11) 15 2 _ _).trans ((extractLsb'_skip (l := 5) 10 2 _ _).trans
    ((extractLsb'_skip (l := 5) 5 2 _ _).trans ((extractLsb'_skip (l := 5) 0 2 _ _).trans (extractLsb'_low _ _))))

theorem opcodeOf_encodeCop : opcodeOf (encodeCop z sub rt rd low) = 0b0100#4 ++ BitVec.ofNat 2 z.val :=
  (extractLsb'_skip (l := 11) 15 6 _ _).trans ((extractLsb'_skip (l := 5) 10 6 _ _).trans
    ((extractLsb'_skip (l := 5) 5 6 _ _).trans (extractLsb'_high _ _)))

@[simp] theorem copIdOf_encodeCop : copIdOf (encodeCop z sub rt rd low) = z := by
  apply Fin.ext
  simp [copIdOf]

end

/-! ### A word that has a nonzero field is not the zero word (R94) -/

theorem ne_zero_of_opcodeOf {w : Word} (h : opcodeOf w ≠ 0) : w ≠ 0 := by rintro rfl; exact h (by decide)

theorem ne_zero_of_functOf {w : Word} (h : functOf w ≠ 0) : w ≠ 0 := by rintro rfl; exact h (by decide)

theorem ne_zero_of_rsBits {w : Word} (h : rsBits w ≠ 0) : w ≠ 0 := by rintro rfl; exact h (by decide)

theorem ne_zero_of_rtBits {w : Word} (h : rtBits w ≠ 0) : w ≠ 0 := by rintro rfl; exact h (by decide)

theorem ne_zero_of_rdBits {w : Word} (h : rdBits w ≠ 0) : w ≠ 0 := by rintro rfl; exact h (by decide)

theorem ne_zero_of_shamtBits {w : Word} (h : shamtBits w ≠ 0) : w ≠ 0 := by rintro rfl; exact h (by decide)

end Sys2Proof
end

