-- ==== Sys2Proof/Laws/Memory.lean ====
section
/-! SUPPORT. The laws of the flat memory: read after write, the canonical form kept by every operation
(20_memory.md R50, R58, R70). -/

namespace Sys2Proof.Machine

/-- A byte just written is what its address reads as; every other address reads as before. -/
theorem Memory.read_write (m : Memory) (a : Nat) (v : Byte) (c : Nat) :
    Memory.read (Memory.write m a v) c = if c = a then some v else Memory.read m c := by
  induction m with
  | nil => simp [Memory.write, Memory.read, eq_comm]
  | cons x rest ih =>
    obtain ⟨k, b⟩ := x
    unfold Memory.write
    split
    · simp only [Memory.read, eq_comm (a := c)]
    · split
      · next h => subst h; by_cases hc : a = c <;> simp [Memory.read, hc, eq_comm (a := c)]
      · next h =>
        simp only [Memory.read, ih]
        by_cases hk : k = c
        · subst hk; simp [Ne.symm h]
        · simp [hk]

@[simp] theorem Memory.read_write_self (m : Memory) (a : Nat) (v : Byte) :
    Memory.read (Memory.write m a v) a = some v := by simp [Memory.read_write]

theorem Memory.read_write_ne (m : Memory) {a c : Nat} (v : Byte) (h : c ≠ a) :
    Memory.read (Memory.write m a v) c = Memory.read m c := by simp [Memory.read_write, h]

/-- Only the written address is new in the list. -/
theorem Memory.mem_write {m : Memory} {a : Nat} {v : Byte} {c : Host.Cell} (h : c ∈ Memory.write m a v) :
    c = (a, v) ∨ c ∈ m := by
  induction m with
  | nil => simpa [Memory.write] using h
  | cons x rest ih =>
    obtain ⟨k, b⟩ := x
    unfold Memory.write at h
    split at h
    · simpa using h
    · split at h
      · rcases List.mem_cons.1 h with h | h
        · exact .inl h
        · exact .inr (List.mem_cons_of_mem _ h)
      · rcases List.mem_cons.1 h with h | h
        · exact .inr (h ▸ List.mem_cons_self ..)
        · exact (ih h).imp id (List.mem_cons_of_mem _)

/-- A write keeps the canonical form. -/
theorem Memory.wf_write {m : Memory} {a : Nat} (v : Byte) (h : m.wf) (ha : a < 2 ^ 32) :
    (Memory.write m a v).wf := by
  refine ⟨?_, fun c hc => ?_⟩
  · induction m with
    | nil => simp [Memory.write]
    | cons x rest ih =>
      obtain ⟨k, b⟩ := x
      obtain ⟨hp, hb⟩ := h
      have hrest := List.pairwise_cons.1 hp
      unfold Memory.write
      split
      · next hak =>
        refine List.pairwise_cons.2 ⟨fun c hc => ?_, hp⟩
        rcases List.mem_cons.1 hc with rfl | hc
        · exact hak
        · exact Nat.lt_trans hak (hrest.1 c hc)
      · split
        · next hak => exact List.pairwise_cons.2 ⟨fun c hc => hak ▸ hrest.1 c hc, hrest.2⟩
        · next hlt hne =>
          have hw := ih ⟨hrest.2, fun c hc => hb c (List.mem_cons_of_mem _ hc)⟩
          refine List.pairwise_cons.2 ⟨fun c hc => ?_, hw⟩
          rcases Memory.mem_write hc with rfl | hc
          · show k < a; omega
          · exact hrest.1 c hc
  · rcases Memory.mem_write hc with rfl | hc
    · exact ha
    · exact h.2 c hc

/-- Writing bytes keeps the canonical form. -/
theorem Memory.wf_writeBytes {m : Memory} (a : Word) (bytes : List Byte) (h : m.wf) :
    (m.writeBytes a bytes).wf := by
  induction bytes generalizing m a with
  | nil => exact h
  | cons b rest ih => exact ih _ (Memory.wf_write b h a.isLt)

/-- Any list of cells gives a canonical memory. -/
theorem Memory.wf_ofCells (cells : List Host.Cell) : (Memory.ofCells cells).wf := by
  induction cells with
  | nil => exact ⟨List.Pairwise.nil, by simp [Memory.ofCells]⟩
  | cons c rest ih => exact Memory.wf_write _ ih (Nat.mod_lt _ (by decide))

/-- An address none of the written bytes lies at reads as before. -/
theorem Memory.read_writeBytes_outside (m : Memory) (a : Word) (bytes : List Byte) (c : Nat)
    (h : ∀ i, i < bytes.length → c ≠ (a + BitVec.ofNat 32 i).toNat) :
    Memory.read (m.writeBytes a bytes) c = Memory.read m c := by
  induction bytes generalizing m a with
  | nil => rfl
  | cons b rest ih =>
    rw [Memory.writeBytes, ih]
    · exact Memory.read_write_ne _ _ (by simpa using h 0 (by simp))
    · intro i hi
      have := h (i + 1) (by simpa using hi)
      rwa [show a + BitVec.ofNat 32 (i + 1) = a + 1#32 + BitVec.ofNat 32 i by bv_omega] at this

/-- Byte `i` of the written bytes is what address `a + i` reads as. -/
theorem Memory.read_writeBytes_inside (m : Memory) (a : Word) (bytes : List Byte) (i : Nat) (hi : i < bytes.length)
    (hlen : bytes.length ≤ 2 ^ 32) :
    Memory.read (m.writeBytes a bytes) (a + BitVec.ofNat 32 i).toNat = some bytes[i] := by
  induction bytes generalizing m a i with
  | nil => exact absurd hi (by simp)
  | cons b rest ih =>
    rw [Memory.writeBytes]
    simp only [List.length_cons] at hi hlen
    cases i with
    | zero =>
      rw [Memory.read_writeBytes_outside]
      · simp
      · intro j hj; bv_omega
    | succ i =>
      rw [show a + BitVec.ofNat 32 (i + 1) = a + 1#32 + BitVec.ofNat 32 i by bv_omega]
      rw [ih _ _ _ (by omega) (by omega)]
      simp

end Sys2Proof.Machine
end

