-- ==== Sys2Proof/Laws/State.lean ====
section
/-! SUPPORT. What each update of the state leaves alone, one lemma per field, and what each register write is read back
as (10_state.md R31, R24, R30). -/

namespace Sys2Proof.Machine

/-! ### setGpr -/

@[simp] theorem State.setGpr_pc (s : State) (r : Reg) (v : Word) : (s.setGpr r v).pc = s.pc := by unfold State.setGpr; split <;> rfl
@[simp] theorem State.setGpr_hi (s : State) (r : Reg) (v : Word) : (s.setGpr r v).hi = s.hi := by unfold State.setGpr; split <;> rfl
@[simp] theorem State.setGpr_lo (s : State) (r : Reg) (v : Word) : (s.setGpr r v).lo = s.lo := by unfold State.setGpr; split <;> rfl
@[simp] theorem State.setGpr_cop (s : State) (r : Reg) (v : Word) : (s.setGpr r v).cop = s.cop := by unfold State.setGpr; split <;> rfl
@[simp] theorem State.setGpr_mem (s : State) (r : Reg) (v : Word) : (s.setGpr r v).mem = s.mem := by unfold State.setGpr; split <;> rfl
@[simp] theorem State.setGpr_pending (s : State) (r : Reg) (v : Word) : (s.setGpr r v).pending = s.pending := by unfold State.setGpr; split <;> rfl
@[simp] theorem State.setGpr_halt (s : State) (r : Reg) (v : Word) : (s.setGpr r v).halt = s.halt := by unfold State.setGpr; split <;> rfl
@[simp] theorem State.setGpr_params (s : State) (r : Reg) (v : Word) : (s.setGpr r v).params = s.params := by unfold State.setGpr; split <;> rfl

/-! ### setHi -/

@[simp] theorem State.setHi_gpr (s : State) (v : Word) : (s.setHi v).gpr = s.gpr := rfl
@[simp] theorem State.setHi_pc (s : State) (v : Word) : (s.setHi v).pc = s.pc := rfl
@[simp] theorem State.setHi_lo (s : State) (v : Word) : (s.setHi v).lo = s.lo := rfl
@[simp] theorem State.setHi_cop (s : State) (v : Word) : (s.setHi v).cop = s.cop := rfl
@[simp] theorem State.setHi_mem (s : State) (v : Word) : (s.setHi v).mem = s.mem := rfl
@[simp] theorem State.setHi_pending (s : State) (v : Word) : (s.setHi v).pending = s.pending := rfl
@[simp] theorem State.setHi_halt (s : State) (v : Word) : (s.setHi v).halt = s.halt := rfl
@[simp] theorem State.setHi_params (s : State) (v : Word) : (s.setHi v).params = s.params := rfl

/-! ### setLo -/

@[simp] theorem State.setLo_gpr (s : State) (v : Word) : (s.setLo v).gpr = s.gpr := rfl
@[simp] theorem State.setLo_pc (s : State) (v : Word) : (s.setLo v).pc = s.pc := rfl
@[simp] theorem State.setLo_hi (s : State) (v : Word) : (s.setLo v).hi = s.hi := rfl
@[simp] theorem State.setLo_cop (s : State) (v : Word) : (s.setLo v).cop = s.cop := rfl
@[simp] theorem State.setLo_mem (s : State) (v : Word) : (s.setLo v).mem = s.mem := rfl
@[simp] theorem State.setLo_pending (s : State) (v : Word) : (s.setLo v).pending = s.pending := rfl
@[simp] theorem State.setLo_halt (s : State) (v : Word) : (s.setLo v).halt = s.halt := rfl
@[simp] theorem State.setLo_params (s : State) (v : Word) : (s.setLo v).params = s.params := rfl

/-! ### setCop -/

@[simp] theorem State.setCop_gpr (s : State) (z : CopId) (r : Reg) (v : Word) : (s.setCop z r v).gpr = s.gpr := rfl
@[simp] theorem State.setCop_pc (s : State) (z : CopId) (r : Reg) (v : Word) : (s.setCop z r v).pc = s.pc := rfl
@[simp] theorem State.setCop_hi (s : State) (z : CopId) (r : Reg) (v : Word) : (s.setCop z r v).hi = s.hi := rfl
@[simp] theorem State.setCop_lo (s : State) (z : CopId) (r : Reg) (v : Word) : (s.setCop z r v).lo = s.lo := rfl
@[simp] theorem State.setCop_mem (s : State) (z : CopId) (r : Reg) (v : Word) : (s.setCop z r v).mem = s.mem := rfl
@[simp] theorem State.setCop_pending (s : State) (z : CopId) (r : Reg) (v : Word) : (s.setCop z r v).pending = s.pending := rfl
@[simp] theorem State.setCop_halt (s : State) (z : CopId) (r : Reg) (v : Word) : (s.setCop z r v).halt = s.halt := rfl
@[simp] theorem State.setCop_params (s : State) (z : CopId) (r : Reg) (v : Word) : (s.setCop z r v).params = s.params := rfl

/-! ### setCop0 -/

@[simp] theorem State.setCop0_gpr (s : State) (bank : Vector Word 32) : (s.setCop0 bank).gpr = s.gpr := rfl
@[simp] theorem State.setCop0_pc (s : State) (bank : Vector Word 32) : (s.setCop0 bank).pc = s.pc := rfl
@[simp] theorem State.setCop0_hi (s : State) (bank : Vector Word 32) : (s.setCop0 bank).hi = s.hi := rfl
@[simp] theorem State.setCop0_lo (s : State) (bank : Vector Word 32) : (s.setCop0 bank).lo = s.lo := rfl
@[simp] theorem State.setCop0_mem (s : State) (bank : Vector Word 32) : (s.setCop0 bank).mem = s.mem := rfl
@[simp] theorem State.setCop0_pending (s : State) (bank : Vector Word 32) : (s.setCop0 bank).pending = s.pending := rfl
@[simp] theorem State.setCop0_halt (s : State) (bank : Vector Word 32) : (s.setCop0 bank).halt = s.halt := rfl
@[simp] theorem State.setCop0_params (s : State) (bank : Vector Word 32) : (s.setCop0 bank).params = s.params := rfl

/-! ### storeBytes -/

@[simp] theorem State.storeBytes_gpr (s : State) (a : Word) (bytes : List Byte) : (s.storeBytes a bytes).gpr = s.gpr := rfl
@[simp] theorem State.storeBytes_pc (s : State) (a : Word) (bytes : List Byte) : (s.storeBytes a bytes).pc = s.pc := rfl
@[simp] theorem State.storeBytes_hi (s : State) (a : Word) (bytes : List Byte) : (s.storeBytes a bytes).hi = s.hi := rfl
@[simp] theorem State.storeBytes_lo (s : State) (a : Word) (bytes : List Byte) : (s.storeBytes a bytes).lo = s.lo := rfl
@[simp] theorem State.storeBytes_cop (s : State) (a : Word) (bytes : List Byte) : (s.storeBytes a bytes).cop = s.cop := rfl
@[simp] theorem State.storeBytes_pending (s : State) (a : Word) (bytes : List Byte) : (s.storeBytes a bytes).pending = s.pending := rfl
@[simp] theorem State.storeBytes_halt (s : State) (a : Word) (bytes : List Byte) : (s.storeBytes a bytes).halt = s.halt := rfl
@[simp] theorem State.storeBytes_params (s : State) (a : Word) (bytes : List Byte) : (s.storeBytes a bytes).params = s.params := rfl

/-! ### advance -/

@[simp] theorem State.advance_gpr (s : State) : (s.advance).gpr = s.gpr := by unfold State.advance; split <;> rfl
@[simp] theorem State.advance_hi (s : State) : (s.advance).hi = s.hi := by unfold State.advance; split <;> rfl
@[simp] theorem State.advance_lo (s : State) : (s.advance).lo = s.lo := by unfold State.advance; split <;> rfl
@[simp] theorem State.advance_cop (s : State) : (s.advance).cop = s.cop := by unfold State.advance; split <;> rfl
@[simp] theorem State.advance_mem (s : State) : (s.advance).mem = s.mem := by unfold State.advance; split <;> rfl
@[simp] theorem State.advance_halt (s : State) : (s.advance).halt = s.halt := by unfold State.advance; split <;> rfl
@[simp] theorem State.advance_params (s : State) : (s.advance).params = s.params := by unfold State.advance; split <;> rfl

/-! ### haltWith -/

@[simp] theorem State.haltWith_gpr (s : State) (f : Fault) : (s.haltWith f).gpr = s.gpr := rfl
@[simp] theorem State.haltWith_pc (s : State) (f : Fault) : (s.haltWith f).pc = s.pc := rfl
@[simp] theorem State.haltWith_hi (s : State) (f : Fault) : (s.haltWith f).hi = s.hi := rfl
@[simp] theorem State.haltWith_lo (s : State) (f : Fault) : (s.haltWith f).lo = s.lo := rfl
@[simp] theorem State.haltWith_cop (s : State) (f : Fault) : (s.haltWith f).cop = s.cop := rfl
@[simp] theorem State.haltWith_mem (s : State) (f : Fault) : (s.haltWith f).mem = s.mem := rfl
@[simp] theorem State.haltWith_pending (s : State) (f : Fault) : (s.haltWith f).pending = s.pending := rfl
@[simp] theorem State.haltWith_params (s : State) (f : Fault) : (s.haltWith f).params = s.params := rfl

/-! ### placeWord -/

@[simp] theorem State.placeWord_gpr (s : State) (w : Word) : (s.placeWord w).gpr = s.gpr := rfl
@[simp] theorem State.placeWord_pc (s : State) (w : Word) : (s.placeWord w).pc = s.pc := rfl
@[simp] theorem State.placeWord_hi (s : State) (w : Word) : (s.placeWord w).hi = s.hi := rfl
@[simp] theorem State.placeWord_lo (s : State) (w : Word) : (s.placeWord w).lo = s.lo := rfl
@[simp] theorem State.placeWord_cop (s : State) (w : Word) : (s.placeWord w).cop = s.cop := rfl
@[simp] theorem State.placeWord_pending (s : State) (w : Word) : (s.placeWord w).pending = s.pending := rfl
@[simp] theorem State.placeWord_halt (s : State) (w : Word) : (s.placeWord w).halt = s.halt := rfl
@[simp] theorem State.placeWord_params (s : State) (w : Word) : (s.placeWord w).params = s.params := rfl

/-! ### interruptHook -/

@[simp] theorem State.interruptHook_halt (s : State) : (s.interruptHook).halt = s.halt := by
  unfold State.interruptHook State.afterHook; split <;> (try split) <;> rfl
@[simp] theorem State.interruptHook_params (s : State) : (s.interruptHook).params = s.params := by
  unfold State.interruptHook State.afterHook; split <;> (try split) <;> rfl

@[simp] theorem State.setHi_hi (s : State) (v : Word) : (s.setHi v).hi = v := rfl
@[simp] theorem State.setLo_lo (s : State) (v : Word) : (s.setLo v).lo = v := rfl
@[simp] theorem State.haltWith_halt (s : State) (f : Fault) : (s.haltWith f).halt = some f := rfl
@[simp] theorem State.storeBytes_mem (s : State) (a : Word) (bytes : List Byte) :
    (s.storeBytes a bytes).mem = s.mem.writeBytes a bytes := rfl

/-! ### Reads depend on their own field only -/

theorem State.getGpr_congr {s t : State} (h : t.gpr = s.gpr) (r : Reg) : t.getGpr r = s.getGpr r := by
  simp only [State.getGpr, h]

theorem State.getCop_congr {s t : State} (h : t.cop = s.cop) (z : CopId) (r : Reg) : t.getCop z r = s.getCop z r := by
  simp only [State.getCop, h]

theorem State.admits_congr {s t : State} (h : t.params = s.params) (a : Word) (n : Nat) :
    t.admits a n = s.admits a n := by
  simp only [State.admits, h]

@[simp] theorem State.getCop_setGpr (s : State) (r : Reg) (v : Word) (z' : CopId) (i : Reg) : (s.setGpr r v).getCop z' i = s.getCop z' i :=
  State.getCop_congr (by simp) z' i
@[simp] theorem State.admits_setGpr (s : State) (r : Reg) (v : Word) (a' : Word) (k : Nat) : (s.setGpr r v).admits a' k = s.admits a' k :=
  State.admits_congr (by simp) a' k
@[simp] theorem State.getGpr_setHi (s : State) (v : Word) (i : Reg) : (s.setHi v).getGpr i = s.getGpr i :=
  State.getGpr_congr (by simp) i
@[simp] theorem State.getCop_setHi (s : State) (v : Word) (z' : CopId) (i : Reg) : (s.setHi v).getCop z' i = s.getCop z' i :=
  State.getCop_congr (by simp) z' i
@[simp] theorem State.admits_setHi (s : State) (v : Word) (a' : Word) (k : Nat) : (s.setHi v).admits a' k = s.admits a' k :=
  State.admits_congr (by simp) a' k
@[simp] theorem State.getGpr_setLo (s : State) (v : Word) (i : Reg) : (s.setLo v).getGpr i = s.getGpr i :=
  State.getGpr_congr (by simp) i
@[simp] theorem State.getCop_setLo (s : State) (v : Word) (z' : CopId) (i : Reg) : (s.setLo v).getCop z' i = s.getCop z' i :=
  State.getCop_congr (by simp) z' i
@[simp] theorem State.admits_setLo (s : State) (v : Word) (a' : Word) (k : Nat) : (s.setLo v).admits a' k = s.admits a' k :=
  State.admits_congr (by simp) a' k
@[simp] theorem State.getGpr_setCop (s : State) (z : CopId) (r : Reg) (v : Word) (i : Reg) : (s.setCop z r v).getGpr i = s.getGpr i :=
  State.getGpr_congr (by simp) i
@[simp] theorem State.admits_setCop (s : State) (z : CopId) (r : Reg) (v : Word) (a' : Word) (k : Nat) : (s.setCop z r v).admits a' k = s.admits a' k :=
  State.admits_congr (by simp) a' k
@[simp] theorem State.getGpr_setCop0 (s : State) (bank : Vector Word 32) (i : Reg) : (s.setCop0 bank).getGpr i = s.getGpr i :=
  State.getGpr_congr (by simp) i
@[simp] theorem State.admits_setCop0 (s : State) (bank : Vector Word 32) (a' : Word) (k : Nat) : (s.setCop0 bank).admits a' k = s.admits a' k :=
  State.admits_congr (by simp) a' k
@[simp] theorem State.getGpr_storeBytes (s : State) (a : Word) (bytes : List Byte) (i : Reg) : (s.storeBytes a bytes).getGpr i = s.getGpr i :=
  State.getGpr_congr (by simp) i
@[simp] theorem State.getCop_storeBytes (s : State) (a : Word) (bytes : List Byte) (z' : CopId) (i : Reg) : (s.storeBytes a bytes).getCop z' i = s.getCop z' i :=
  State.getCop_congr (by simp) z' i
@[simp] theorem State.admits_storeBytes (s : State) (a : Word) (bytes : List Byte) (a' : Word) (k : Nat) : (s.storeBytes a bytes).admits a' k = s.admits a' k :=
  State.admits_congr (by simp) a' k
@[simp] theorem State.getGpr_advance (s : State) (i : Reg) : (s.advance).getGpr i = s.getGpr i :=
  State.getGpr_congr (by simp) i
@[simp] theorem State.getCop_advance (s : State) (z' : CopId) (i : Reg) : (s.advance).getCop z' i = s.getCop z' i :=
  State.getCop_congr (by simp) z' i
@[simp] theorem State.admits_advance (s : State) (a' : Word) (k : Nat) : (s.advance).admits a' k = s.admits a' k :=
  State.admits_congr (by simp) a' k
@[simp] theorem State.getGpr_haltWith (s : State) (f : Fault) (i : Reg) : (s.haltWith f).getGpr i = s.getGpr i :=
  State.getGpr_congr (by simp) i
@[simp] theorem State.getCop_haltWith (s : State) (f : Fault) (z' : CopId) (i : Reg) : (s.haltWith f).getCop z' i = s.getCop z' i :=
  State.getCop_congr (by simp) z' i
@[simp] theorem State.admits_haltWith (s : State) (f : Fault) (a' : Word) (k : Nat) : (s.haltWith f).admits a' k = s.admits a' k :=
  State.admits_congr (by simp) a' k
@[simp] theorem State.getGpr_placeWord (s : State) (w : Word) (i : Reg) : (s.placeWord w).getGpr i = s.getGpr i :=
  State.getGpr_congr (by simp) i
@[simp] theorem State.getCop_placeWord (s : State) (w : Word) (z' : CopId) (i : Reg) : (s.placeWord w).getCop z' i = s.getCop z' i :=
  State.getCop_congr (by simp) z' i
@[simp] theorem State.admits_placeWord (s : State) (w : Word) (a' : Word) (k : Nat) : (s.placeWord w).admits a' k = s.admits a' k :=
  State.admits_congr (by simp) a' k
@[simp] theorem State.admits_interruptHook (s : State) (a' : Word) (k : Nat) : (s.interruptHook).admits a' k = s.admits a' k :=
  State.admits_congr (by simp) a' k

/-! ### General registers (R31) -/

@[simp] theorem State.getGpr_zero (s : State) : s.getGpr 0 = 0 := rfl

@[simp] theorem State.setGpr_zero (s : State) (v : Word) : s.setGpr 0 v = s := rfl

theorem State.getGpr_setGpr (s : State) (d : Reg) (v : Word) (r : Reg) :
    (s.setGpr d v).getGpr r = if r = d then (if d = 0 then 0 else v) else s.getGpr r := by
  unfold State.setGpr State.getGpr
  by_cases hd : d.val = 0
  · have : d = 0 := Fin.ext hd
    subst this
    by_cases hr : r = 0
    · subst hr; simp
    · simp [hr]
  · have hd' : d ≠ 0 := fun h => hd (by simp [h])
    by_cases hrd : r = d
    · subst hrd; simp [hd, hd']
    · have hne : r.val ≠ d.val := fun h => hrd (Fin.ext h)
      by_cases hr : r.val = 0
      · simp [hr, hrd]
      · simp only [hd, hr, hrd, dite_false, if_false]
        rw [Vector.getElem_set_ne]
        omega

@[simp] theorem State.getGpr_setGpr_self (s : State) (d : Reg) (v : Word) :
    (s.setGpr d v).getGpr d = if d = 0 then 0 else v := by simp [State.getGpr_setGpr]

theorem State.getGpr_setGpr_ne (s : State) {d r : Reg} (v : Word) (h : r ≠ d) :
    (s.setGpr d v).getGpr r = s.getGpr r := by simp [State.getGpr_setGpr, h]

/-! ### Coprocessor registers (R30) -/

theorem State.getCop_setCop (s : State) (z : CopId) (r : Reg) (v : Word) (z' : CopId) (r' : Reg) :
    (s.setCop z r v).getCop z' r' = if z' = z ∧ r' = r then v else s.getCop z' r' := by
  unfold State.setCop State.getCop
  by_cases hz : z' = z
  · subst hz
    by_cases hr : r' = r
    · subst hr; simp
    · have hne : r.val ≠ r'.val := fun h => hr (Fin.ext h.symm)
      simp [hr, Vector.getElem_set_ne, hne]
  · have hne : z.val ≠ z'.val := fun h => hz (Fin.ext h.symm)
    simp [hz, Vector.getElem_set_ne, hne]

theorem State.getCop_setCop0 (s : State) (bank : Vector Word 32) (z : CopId) (r : Reg) :
    (s.setCop0 bank).getCop z r = if z = 0 then bank[r.val] else s.getCop z r := by
  unfold State.setCop0 State.getCop
  by_cases hz : z = 0
  · subst hz; simp
  · have hne : 0 ≠ z.val := fun h => hz (Fin.ext h.symm)
    simp [hz, Vector.getElem_set_ne, hne]

end Sys2Proof.Machine
end

