-- ==== Sys2Proof/Laws/Ops.lean ====
section
/-! SUPPORT. One lemma for each shared operation that says what it can do: the memory ports (20_memory.md R50), the
program counter's operations (10_state.md R32 to R34), the system call and the return (60_exceptions.md R293, R294), and
what every completed instruction keeps. -/

namespace Sys2Proof.Machine

/-! ### Outcomes -/

@[simp] theorem orFault_ok {α : Type} (a : α) (k : α → Result) : orFault (.ok a) k = k a := rfl

@[simp] theorem orFault_error {α : Type} (f : Fault) (k : α → Result) : orFault (.error f) k = .fault f := rfl

/-- A handler that completes did not stop at the port operation. -/
theorem orFault_eq_next {α : Type} {x : Except Fault α} {k : α → Result} {t : State} :
    orFault x k = .next t ↔ ∃ a, x = .ok a ∧ k a = .next t := by
  cases x <;> simp [orFault]

/-- A handler that stops does so at the port operation or after it. -/
theorem orFault_eq_fault {α : Type} {x : Except Fault α} {k : α → Result} {f : Fault} :
    orFault x k = .fault f ↔ x = .error f ∨ ∃ a, x = .ok a ∧ k a = .fault f := by
  cases x <;> simp [orFault]

/-! ### The program counter (R32 to R34) -/

theorem State.advanced_advance (s : State) : Advanced s s.advance := by
  unfold Advanced State.advance
  split
  · next h => exact ⟨rfl, by rw [h]⟩
  · next h => simp [h, BitVec.toNat_add]

theorem State.jp_free {s : State} (h : s.pending = none) (a : Word) :
    s.jp a = .ok { s with pc := s.pc + 4#32, pending := some a } := by simp [State.jp, h]

theorem State.jp_inSlot {s : State} {x : Word} (h : s.pending = some x) (a : Word) :
    s.jp a = .error (.branchInDelaySlot s.pc) := by simp [State.jp, h]

theorem State.branch_free {s : State} (h : s.pending = none) (c : Bool) (o : Word) :
    s.branch c o = .ok { s with pc := s.pc + 4#32, pending := if c then some (s.pc + 4#32 + o) else none } := by
  simp [State.branch, h]

theorem State.branch_inSlot {s : State} {x : Word} (h : s.pending = some x) (c : Bool) (o : Word) :
    s.branch c o = .error (.branchInDelaySlot s.pc) := by simp [State.branch, h]

/-! ### The memory ports (R35, R50) -/

theorem State.loadByte_of_read {s : State} {a : Word} {b : Byte} (h : s.mem.read a.toNat = some b) :
    s.loadByte a = .ok b := by simp [State.loadByte, h]

theorem HoldsBytes.loadByte {s : State} {a : Word} {n : Nat} {m : Nat → Byte} (h : HoldsBytes s a n m) {i : Nat}
    (hi : i < n) : s.loadByte (a + BitVec.ofNat 32 i) = .ok (m i) := State.loadByte_of_read (h.2 i hi)

theorem State.read8_eq {s : State} {a : Word} {m : Nat → Byte} (h : HoldsBytes s a 1 m) : s.read8 a = .ok (m 0) := by
  have h0 := h.loadByte (i := 0) (by omega)
  simp only [BitVec.add_zero] at h0
  simp [State.read8, h.1, h0]

theorem State.read16_eq {s : State} {a : Word} {m : Nat → Byte} (h : HoldsBytes s a 2 m) :
    s.read16 a = .ok (halfOfBytes (m 0) (m 1)) := by
  have h0 := h.loadByte (i := 0) (by omega)
  have h1 := h.loadByte (i := 1) (by omega)
  simp only [BitVec.add_zero] at h0 h1
  simp [State.read16, h.1, h0, h1, bind, Except.bind, pure, Except.pure]

theorem State.read32_eq {s : State} {a : Word} {m : Nat → Byte} (h : HoldsBytes s a 4 m) :
    s.read32 a = .ok (wordOfBytes (m 0) (m 1) (m 2) (m 3)) := by
  have h0 := h.loadByte (i := 0) (by omega)
  have h1 := h.loadByte (i := 1) (by omega)
  have h2 := h.loadByte (i := 2) (by omega)
  have h3 := h.loadByte (i := 3) (by omega)
  simp only [BitVec.add_zero] at h0 h1 h2 h3
  simp [State.read32, h.1, h0, h1, h2, h3, bind, Except.bind, pure, Except.pure]

/-- The bytes of a store, and nothing else, are new (R50). -/
theorem State.storesBytes_storeBytes (s : State) (a : Word) (bytes : List Byte) (v : Nat → Byte)
    (hlen : bytes.length ≤ 2 ^ 32) (hv : ∀ i (h : i < bytes.length), bytes[i] = v i) :
    StoresBytes s (s.storeBytes a bytes) a bytes.length v := by
  refine ⟨fun i hi => ?_, fun c hc => ?_, fun r => by simp, ⟨rfl, rfl⟩, fun z r => by simp, ⟨rfl, rfl⟩⟩
  · rw [State.storeBytes_mem, Memory.read_writeBytes_inside _ _ _ i hi hlen, hv i hi]
  · exact Memory.read_writeBytes_outside _ _ _ c hc

theorem State.write8_ok {s t : State} {a : Word} {v : Byte} (h : s.write8 a v = .ok t) :
    s.admits a 1 = true ∧ t = s.storeBytes a [v] := by
  unfold State.write8 at h; split at h <;> simp_all

theorem State.write16_ok {s t : State} {a : Word} {v : Half} (h : s.write16 a v = .ok t) :
    s.admits a 2 = true ∧ t = s.storeBytes a (bytesOfHalf v) := by
  unfold State.write16 at h; split at h <;> simp_all

theorem State.write32_ok {s t : State} {a : Word} {v : Word} (h : s.write32 a v = .ok t) :
    s.admits a 4 = true ∧ t = s.storeBytes a (bytesOfWord v) := by
  unfold State.write32 at h; split at h <;> simp_all

/-! ### What a state update keeps of the setup and of memory's form -/

/-- The setup is kept and so is the canonical form of memory. -/
def KeepsSetup (s t : State) : Prop := t.halt = s.halt ∧ t.params = s.params ∧ (s.mem.wf → t.mem.wf)

theorem KeepsSetup.refl (s : State) : KeepsSetup s s := ⟨rfl, rfl, id⟩

theorem KeepsSetup.trans {s t u : State} (h : KeepsSetup s t) (k : KeepsSetup t u) : KeepsSetup s u :=
  ⟨k.1.trans h.1, k.2.1.trans h.2.1, k.2.2 ∘ h.2.2⟩

theorem KeepsSetup.of_eq {s t : State} (h : t.halt = s.halt) (p : t.params = s.params) (m : t.mem = s.mem) :
    KeepsSetup s t := ⟨h, p, fun w => m ▸ w⟩

theorem State.keepsSetup_advance (s : State) : KeepsSetup s s.advance := .of_eq (by simp) (by simp) (by simp)

theorem State.keepsSetup_setGpr (s : State) (r : Reg) (v : Word) : KeepsSetup s (s.setGpr r v) :=
  .of_eq (by simp) (by simp) (by simp)

theorem State.keepsSetup_storeBytes (s : State) (a : Word) (bytes : List Byte) :
    KeepsSetup s (s.storeBytes a bytes) := ⟨rfl, rfl, Memory.wf_writeBytes a bytes⟩

theorem State.keepsSetup_jp {s t : State} {a : Word} (h : s.jp a = .ok t) : KeepsSetup s t := by
  unfold State.jp at h; split at h <;> simp at h; subst h; exact .of_eq rfl rfl rfl

theorem State.keepsSetup_branch {s t : State} {c : Bool} {o : Word} (h : s.branch c o = .ok t) : KeepsSetup s t := by
  unfold State.branch at h; split at h <;> simp at h; subst h; exact .of_eq rfl rfl rfl

theorem State.keepsSetup_returnFromException (s : State) : KeepsSetup s s.returnFromException := by
  unfold State.returnFromException; split <;> exact .of_eq rfl rfl rfl

theorem State.keepsSetup_syscallException {s t : State} (h : s.syscallException = .next t) : KeepsSetup s t := by
  unfold State.syscallException at h
  split at h <;> simp at h <;> subst h <;> exact .of_eq rfl rfl rfl

theorem State.keepsSetup_interruptHook (s : State) : KeepsSetup s s.interruptHook := by
  refine ⟨by simp, by simp, fun h => ?_⟩
  unfold State.interruptHook State.afterHook
  split
  · exact h
  · split
    · exact h
    · exact Memory.wf_ofCells _

/-! ### What the ends of the handlers keep -/

theorem keepsSetup_writeAndAdvance {s t : State} {d : Reg} {v : Word} (h : writeAndAdvance s d v = .next t) :
    KeepsSetup s t := by
  cases h; exact (s.keepsSetup_setGpr d v).trans (State.keepsSetup_advance _)

theorem keepsSetup_writeHiLo {s t : State} {hi lo : Word} (h : writeHiLo s hi lo = .next t) : KeepsSetup s t := by
  cases h; exact .trans (.of_eq rfl rfl rfl) (State.keepsSetup_advance _)

theorem keepsSetup_loadInto {s t : State} {rt : Reg} {x : Except Fault Word} (h : loadInto s rt x = .next t) :
    KeepsSetup s t := by
  obtain ⟨v, -, hv⟩ := orFault_eq_next.1 h; exact keepsSetup_writeAndAdvance hv

theorem keepsSetup_storeAndAdvance {s t : State} {x : Except Fault State} (hx : ∀ u, x = .ok u → KeepsSetup s u)
    (h : storeAndAdvance x = .next t) : KeepsSetup s t := by
  obtain ⟨u, hu, hv⟩ := orFault_eq_next.1 h; cases hv; exact (hx u hu).trans (State.keepsSetup_advance _)

theorem keepsSetup_write8 {s u : State} {a : Word} {v : Byte} (h : s.write8 a v = .ok u) : KeepsSetup s u :=
  (State.write8_ok h).2 ▸ State.keepsSetup_storeBytes ..

theorem keepsSetup_write16 {s u : State} {a : Word} {v : Half} (h : s.write16 a v = .ok u) : KeepsSetup s u :=
  (State.write16_ok h).2 ▸ State.keepsSetup_storeBytes ..

theorem keepsSetup_write32 {s u : State} {a : Word} {v : Word} (h : s.write32 a v = .ok u) : KeepsSetup s u :=
  (State.write32_ok h).2 ▸ State.keepsSetup_storeBytes ..

theorem keepsSetup_mergeStore {s t : State} {rt : Reg} {ea : Word} {f : Word → Word → Word}
    (h : mergeStore s rt ea f = .next t) : KeepsSetup s t := by
  obtain ⟨m, -, hm⟩ := orFault_eq_next.1 h
  exact keepsSetup_storeAndAdvance (fun _ => keepsSetup_write32) hm

theorem keepsSetup_jumpTo {s t : State} {a : Word} (h : jumpTo s a = .next t) : KeepsSetup s t := by
  obtain ⟨u, hu, hv⟩ := orFault_eq_next.1 h; cases hv; exact State.keepsSetup_jp hu

theorem keepsSetup_jumpAndLink {s t : State} {a : Word} {r : Reg} (h : jumpAndLink s a r = .next t) :
    KeepsSetup s t := by
  obtain ⟨u, hu, hv⟩ := orFault_eq_next.1 h; cases hv
  exact (State.keepsSetup_jp hu).trans (State.keepsSetup_setGpr ..)

theorem keepsSetup_branchOn {s t : State} {c : Bool} {o : Half} (h : branchOn s c o = .next t) : KeepsSetup s t := by
  obtain ⟨u, hu, hv⟩ := orFault_eq_next.1 h; cases hv; exact State.keepsSetup_branch hu

/-- Every completed instruction keeps `halt`, the parameters and memory's canonical form. -/
theorem keepsSetup_exec {i : Instr} {s t : State} (h : exec i s = .next t) : KeepsSetup s t := by
  cases i with
  | zeroWord => cases h; exact s.keepsSetup_advance
  | mthi rs => cases h; exact .trans (.of_eq rfl rfl rfl) (State.keepsSetup_advance _)
  | mtlo rs => cases h; exact .trans (.of_eq rfl rfl rfl) (State.keepsSetup_advance _)
  | multu rs rt => exact keepsSetup_writeHiLo h
  | div rs rt =>
    simp only [exec, execDiv] at h; split at h
    · cases h
    · exact keepsSetup_writeHiLo h
  | divu rs rt =>
    simp only [exec, execDivu] at h; split at h
    · cases h
    · exact keepsSetup_writeHiLo h
  | lb rt base offset | lbu rt base offset | lh rt base offset | lhu rt base offset | lw rt base offset
  | lwl rt base offset | lwr rt base offset => exact keepsSetup_loadInto h
  | sb rt base offset => exact keepsSetup_storeAndAdvance (fun _ => keepsSetup_write8) h
  | sh rt base offset => exact keepsSetup_storeAndAdvance (fun _ => keepsSetup_write16) h
  | sw rt base offset => exact keepsSetup_storeAndAdvance (fun _ => keepsSetup_write32) h
  | swl rt base offset | swr rt base offset => exact keepsSetup_mergeStore h
  | j target => exact keepsSetup_jumpTo h
  | jr rs => exact keepsSetup_jumpTo h
  | jal target => exact keepsSetup_jumpAndLink h
  | jalr rd rs => exact keepsSetup_jumpAndLink h
  | beq rs rt offset | bne rs rt offset | blez rs offset | bgtz rs offset | bltz rs offset | bgez rs offset =>
    exact keepsSetup_branchOn h
  | mfc z rt rd => cases h; exact (State.keepsSetup_setGpr ..).trans (State.keepsSetup_advance _)
  | mtc z rt rd => cases h; exact .trans (.of_eq rfl rfl rfl) (State.keepsSetup_advance _)
  | rfe => cases h; exact s.keepsSetup_returnFromException.trans (State.keepsSetup_advance _)
  | syscall => exact State.keepsSetup_syscallException h
  | _ => exact keepsSetup_writeAndAdvance h

/-! ### The frame of a register write -/

/-- A handler that ends in a register write writes that register and nothing else. -/
theorem writesGpr_writeAndAdvance (s : State) (d : Reg) (v : Word) :
    ∃ t, writeAndAdvance s d v = .next t ∧ WritesGpr s t d v ∧ Advanced s t := by
  refine ⟨_, rfl, ⟨by simp, fun r hr => by simp [State.getGpr_setGpr, hr], ⟨by simp, by simp⟩, fun z r => by simp,
    fun a => by simp, ⟨by simp, by simp⟩⟩, ?_⟩
  have := (s.setGpr d v).advanced_advance
  simpa [Advanced] using this

end Sys2Proof.Machine
end

