-- ==== Sys2Proof/Laws/PerInstr.lean ====
section
/-! SUPPORT. The family OpcodeTable of LAWS.json: the canonical word of every instruction matches its row of
`opcode_table.json`, transcribed here from that file (match and mask), independently of the encoder's formats. -/

namespace Sys2Proof

/-- The (match, mask) pair of an instruction's row in `opcode_table.json`. -/
def tableRow : Instr → Word × Word
  | .zeroWord => (0x00000000#32, 0xFFFFFFFF#32)
  | .sll .. => (0x00000000#32, 0xFC00003F#32)
  | .srl .. => (0x00000002#32, 0xFC00003F#32)
  | .sra .. => (0x00000003#32, 0xFC00003F#32)
  | .sllv .. => (0x00000004#32, 0xFC00003F#32)
  | .srlv .. => (0x00000006#32, 0xFC00003F#32)
  | .srav .. => (0x00000007#32, 0xFC00003F#32)
  | .jr .. => (0x00000008#32, 0xFC00003F#32)
  | .jalr .. => (0x00000009#32, 0xFC00003F#32)
  | .syscall => (0x0000000C#32, 0xFC00003F#32)
  | .mfhi .. => (0x00000010#32, 0xFC00003F#32)
  | .mthi .. => (0x00000011#32, 0xFC00003F#32)
  | .mflo .. => (0x00000012#32, 0xFC00003F#32)
  | .mtlo .. => (0x00000013#32, 0xFC00003F#32)
  | .multu .. => (0x00000019#32, 0xFC00003F#32)
  | .div .. => (0x0000001A#32, 0xFC00003F#32)
  | .divu .. => (0x0000001B#32, 0xFC00003F#32)
  | .add .. => (0x00000020#32, 0xFC00003F#32)
  | .addu .. => (0x00000021#32, 0xFC00003F#32)
  | .subu .. => (0x00000023#32, 0xFC00003F#32)
  | .and .. => (0x00000024#32, 0xFC00003F#32)
  | .or .. => (0x00000025#32, 0xFC00003F#32)
  | .xor .. => (0x00000026#32, 0xFC00003F#32)
  | .nor .. => (0x00000027#32, 0xFC00003F#32)
  | .slt .. => (0x0000002A#32, 0xFC00003F#32)
  | .sltu .. => (0x0000002B#32, 0xFC00003F#32)
  | .bltz .. => (0x04000000#32, 0xFC1F0000#32)
  | .bgez .. => (0x04010000#32, 0xFC1F0000#32)
  | .j .. => (0x08000000#32, 0xFC000000#32)
  | .jal .. => (0x0C000000#32, 0xFC000000#32)
  | .beq .. => (0x10000000#32, 0xFC000000#32)
  | .bne .. => (0x14000000#32, 0xFC000000#32)
  | .blez .. => (0x18000000#32, 0xFC000000#32)
  | .bgtz .. => (0x1C000000#32, 0xFC000000#32)
  | .addi .. => (0x20000000#32, 0xFC000000#32)
  | .addiu .. => (0x24000000#32, 0xFC000000#32)
  | .slti .. => (0x28000000#32, 0xFC000000#32)
  | .sltiu .. => (0x2C000000#32, 0xFC000000#32)
  | .andi .. => (0x30000000#32, 0xFC000000#32)
  | .ori .. => (0x34000000#32, 0xFC000000#32)
  | .lui .. => (0x3C000000#32, 0xFC000000#32)
  | .lb .. => (0x80000000#32, 0xFC000000#32)
  | .lh .. => (0x84000000#32, 0xFC000000#32)
  | .lwl .. => (0x88000000#32, 0xFC000000#32)
  | .lw .. => (0x8C000000#32, 0xFC000000#32)
  | .lbu .. => (0x90000000#32, 0xFC000000#32)
  | .lhu .. => (0x94000000#32, 0xFC000000#32)
  | .lwr .. => (0x98000000#32, 0xFC000000#32)
  | .sb .. => (0xA0000000#32, 0xFC000000#32)
  | .sh .. => (0xA4000000#32, 0xFC000000#32)
  | .swl .. => (0xA8000000#32, 0xFC000000#32)
  | .sw .. => (0xAC000000#32, 0xFC000000#32)
  | .swr .. => (0xB8000000#32, 0xFC000000#32)
  | .mfc .. => (0x40000000#32, 0xF3E00000#32)
  | .mtc .. => (0x40800000#32, 0xF3E00000#32)
  | .rfe => (0x42000000#32, 0xFFE00000#32)

/-- The word's bits under the mask of its row are the row's match. -/
def Laws.OpcodeTable.Statement (i : Instr) : Prop := encode i &&& (tableRow i).2 = (tableRow i).1

/-! ### The masks as selector fields (R81) -/

theorem and_maskR (w : Word) : w &&& 0xFC00003F#32 = ((opcodeOf w).setWidth 32 <<< 26) ||| (functOf w).setWidth 32 := by
  apply BitVec.eq_of_getLsbD_eq; intro i hi
  interval_cases i <;> simp [opcodeOf, functOf]

theorem and_maskI (w : Word) : w &&& 0xFC000000#32 = (opcodeOf w).setWidth 32 <<< 26 := by
  apply BitVec.eq_of_getLsbD_eq; intro i hi
  interval_cases i <;> simp [opcodeOf]

theorem and_maskRegimm (w : Word) :
    w &&& 0xFC1F0000#32 = ((opcodeOf w).setWidth 32 <<< 26) ||| ((rtBits w).setWidth 32 <<< 16) := by
  apply BitVec.eq_of_getLsbD_eq; intro i hi
  interval_cases i <;> simp [opcodeOf, rtBits]

theorem and_maskCop (w : Word) :
    w &&& 0xF3E00000#32 = (((opcodeOf w) &&& 0x3C#6).setWidth 32 <<< 26) ||| ((rsBits w).setWidth 32 <<< 21) := by
  apply BitVec.eq_of_getLsbD_eq; intro i hi
  interval_cases i <;> simp [opcodeOf, rsBits]

namespace Laws.OpcodeTable

theorem zeroWord : Statement .zeroWord := by
  unfold Statement; decide

theorem sll (rd rt : Reg) (shamt : Nat) : Statement (.sll rd rt shamt) := by
  simp only [Statement, tableRow, encode, and_maskR, opcodeOf_encodeR, functOf_encodeR]; decide

theorem srl (rd rt : Reg) (shamt : Nat) : Statement (.srl rd rt shamt) := by
  simp only [Statement, tableRow, encode, and_maskR, opcodeOf_encodeR, functOf_encodeR]; decide

theorem sra (rd rt : Reg) (shamt : Nat) : Statement (.sra rd rt shamt) := by
  simp only [Statement, tableRow, encode, and_maskR, opcodeOf_encodeR, functOf_encodeR]; decide

theorem sllv (rd rt rs : Reg) : Statement (.sllv rd rt rs) := by
  simp only [Statement, tableRow, encode, and_maskR, opcodeOf_encodeR, functOf_encodeR]; decide

theorem srlv (rd rt rs : Reg) : Statement (.srlv rd rt rs) := by
  simp only [Statement, tableRow, encode, and_maskR, opcodeOf_encodeR, functOf_encodeR]; decide

theorem srav (rd rt rs : Reg) : Statement (.srav rd rt rs) := by
  simp only [Statement, tableRow, encode, and_maskR, opcodeOf_encodeR, functOf_encodeR]; decide

theorem jr (rs : Reg) : Statement (.jr rs) := by
  simp only [Statement, tableRow, encode, and_maskR, opcodeOf_encodeR, functOf_encodeR]; decide

theorem jalr (rd rs : Reg) : Statement (.jalr rd rs) := by
  simp only [Statement, tableRow, encode, and_maskR, opcodeOf_encodeR, functOf_encodeR]; decide

theorem syscall : Statement .syscall := by
  simp only [Statement, tableRow, encode, and_maskR, opcodeOf_encodeR, functOf_encodeR]; decide

theorem mfhi (rd : Reg) : Statement (.mfhi rd) := by
  simp only [Statement, tableRow, encode, and_maskR, opcodeOf_encodeR, functOf_encodeR]; decide

theorem mthi (rs : Reg) : Statement (.mthi rs) := by
  simp only [Statement, tableRow, encode, and_maskR, opcodeOf_encodeR, functOf_encodeR]; decide

theorem mflo (rd : Reg) : Statement (.mflo rd) := by
  simp only [Statement, tableRow, encode, and_maskR, opcodeOf_encodeR, functOf_encodeR]; decide

theorem mtlo (rs : Reg) : Statement (.mtlo rs) := by
  simp only [Statement, tableRow, encode, and_maskR, opcodeOf_encodeR, functOf_encodeR]; decide

theorem multu (rs rt : Reg) : Statement (.multu rs rt) := by
  simp only [Statement, tableRow, encode, and_maskR, opcodeOf_encodeR, functOf_encodeR]; decide

theorem div (rs rt : Reg) : Statement (.div rs rt) := by
  simp only [Statement, tableRow, encode, and_maskR, opcodeOf_encodeR, functOf_encodeR]; decide

theorem divu (rs rt : Reg) : Statement (.divu rs rt) := by
  simp only [Statement, tableRow, encode, and_maskR, opcodeOf_encodeR, functOf_encodeR]; decide

theorem add (rd rs rt : Reg) : Statement (.add rd rs rt) := by
  simp only [Statement, tableRow, encode, and_maskR, opcodeOf_encodeR, functOf_encodeR]; decide

theorem addu (rd rs rt : Reg) : Statement (.addu rd rs rt) := by
  simp only [Statement, tableRow, encode, and_maskR, opcodeOf_encodeR, functOf_encodeR]; decide

theorem subu (rd rs rt : Reg) : Statement (.subu rd rs rt) := by
  simp only [Statement, tableRow, encode, and_maskR, opcodeOf_encodeR, functOf_encodeR]; decide

theorem and (rd rs rt : Reg) : Statement (.and rd rs rt) := by
  simp only [Statement, tableRow, encode, and_maskR, opcodeOf_encodeR, functOf_encodeR]; decide

theorem or (rd rs rt : Reg) : Statement (.or rd rs rt) := by
  simp only [Statement, tableRow, encode, and_maskR, opcodeOf_encodeR, functOf_encodeR]; decide

theorem xor (rd rs rt : Reg) : Statement (.xor rd rs rt) := by
  simp only [Statement, tableRow, encode, and_maskR, opcodeOf_encodeR, functOf_encodeR]; decide

theorem nor (rd rs rt : Reg) : Statement (.nor rd rs rt) := by
  simp only [Statement, tableRow, encode, and_maskR, opcodeOf_encodeR, functOf_encodeR]; decide

theorem slt (rd rs rt : Reg) : Statement (.slt rd rs rt) := by
  simp only [Statement, tableRow, encode, and_maskR, opcodeOf_encodeR, functOf_encodeR]; decide

theorem sltu (rd rs rt : Reg) : Statement (.sltu rd rs rt) := by
  simp only [Statement, tableRow, encode, and_maskR, opcodeOf_encodeR, functOf_encodeR]; decide

theorem bltz (rs : Reg) (offset : Half) : Statement (.bltz rs offset) := by
  simp only [Statement, tableRow, encode, and_maskRegimm, opcodeOf_encodeI, rtBits_encodeI]; decide

theorem bgez (rs : Reg) (offset : Half) : Statement (.bgez rs offset) := by
  simp only [Statement, tableRow, encode, and_maskRegimm, opcodeOf_encodeI, rtBits_encodeI]; decide

theorem j (target : BitVec 26) : Statement (.j target) := by
  simp only [Statement, tableRow, encode, and_maskI, opcodeOf_encodeJ]; decide

theorem jal (target : BitVec 26) : Statement (.jal target) := by
  simp only [Statement, tableRow, encode, and_maskI, opcodeOf_encodeJ]; decide

theorem beq (rs rt : Reg) (offset : Half) : Statement (.beq rs rt offset) := by
  simp only [Statement, tableRow, encode, and_maskI, opcodeOf_encodeI]; decide

theorem bne (rs rt : Reg) (offset : Half) : Statement (.bne rs rt offset) := by
  simp only [Statement, tableRow, encode, and_maskI, opcodeOf_encodeI]; decide

theorem blez (rs : Reg) (offset : Half) : Statement (.blez rs offset) := by
  simp only [Statement, tableRow, encode, and_maskI, opcodeOf_encodeI]; decide

theorem bgtz (rs : Reg) (offset : Half) : Statement (.bgtz rs offset) := by
  simp only [Statement, tableRow, encode, and_maskI, opcodeOf_encodeI]; decide

theorem addi (rt rs : Reg) (imm : Half) : Statement (.addi rt rs imm) := by
  simp only [Statement, tableRow, encode, and_maskI, opcodeOf_encodeI]; decide

theorem addiu (rt rs : Reg) (imm : Half) : Statement (.addiu rt rs imm) := by
  simp only [Statement, tableRow, encode, and_maskI, opcodeOf_encodeI]; decide

theorem slti (rt rs : Reg) (imm : Half) : Statement (.slti rt rs imm) := by
  simp only [Statement, tableRow, encode, and_maskI, opcodeOf_encodeI]; decide

theorem sltiu (rt rs : Reg) (imm : Half) : Statement (.sltiu rt rs imm) := by
  simp only [Statement, tableRow, encode, and_maskI, opcodeOf_encodeI]; decide

theorem andi (rt rs : Reg) (imm : Half) : Statement (.andi rt rs imm) := by
  simp only [Statement, tableRow, encode, and_maskI, opcodeOf_encodeI]; decide

theorem ori (rt rs : Reg) (imm : Half) : Statement (.ori rt rs imm) := by
  simp only [Statement, tableRow, encode, and_maskI, opcodeOf_encodeI]; decide

theorem lui (rt : Reg) (imm : Half) : Statement (.lui rt imm) := by
  simp only [Statement, tableRow, encode, and_maskI, opcodeOf_encodeI]; decide

theorem lb (rt base : Reg) (offset : Half) : Statement (.lb rt base offset) := by
  simp only [Statement, tableRow, encode, and_maskI, opcodeOf_encodeI]; decide

theorem lh (rt base : Reg) (offset : Half) : Statement (.lh rt base offset) := by
  simp only [Statement, tableRow, encode, and_maskI, opcodeOf_encodeI]; decide

theorem lwl (rt base : Reg) (offset : Half) : Statement (.lwl rt base offset) := by
  simp only [Statement, tableRow, encode, and_maskI, opcodeOf_encodeI]; decide

theorem lw (rt base : Reg) (offset : Half) : Statement (.lw rt base offset) := by
  simp only [Statement, tableRow, encode, and_maskI, opcodeOf_encodeI]; decide

theorem lbu (rt base : Reg) (offset : Half) : Statement (.lbu rt base offset) := by
  simp only [Statement, tableRow, encode, and_maskI, opcodeOf_encodeI]; decide

theorem lhu (rt base : Reg) (offset : Half) : Statement (.lhu rt base offset) := by
  simp only [Statement, tableRow, encode, and_maskI, opcodeOf_encodeI]; decide

theorem lwr (rt base : Reg) (offset : Half) : Statement (.lwr rt base offset) := by
  simp only [Statement, tableRow, encode, and_maskI, opcodeOf_encodeI]; decide

theorem sb (rt base : Reg) (offset : Half) : Statement (.sb rt base offset) := by
  simp only [Statement, tableRow, encode, and_maskI, opcodeOf_encodeI]; decide

theorem sh (rt base : Reg) (offset : Half) : Statement (.sh rt base offset) := by
  simp only [Statement, tableRow, encode, and_maskI, opcodeOf_encodeI]; decide

theorem swl (rt base : Reg) (offset : Half) : Statement (.swl rt base offset) := by
  simp only [Statement, tableRow, encode, and_maskI, opcodeOf_encodeI]; decide

theorem sw (rt base : Reg) (offset : Half) : Statement (.sw rt base offset) := by
  simp only [Statement, tableRow, encode, and_maskI, opcodeOf_encodeI]; decide

theorem swr (rt base : Reg) (offset : Half) : Statement (.swr rt base offset) := by
  simp only [Statement, tableRow, encode, and_maskI, opcodeOf_encodeI]; decide

theorem mfc (z : CopId) (rt rd : Reg) : Statement (.mfc z rt rd) := by
  simp only [Statement, tableRow, encode, and_maskCop, opcodeOf_encodeCop, rsBits_encodeCop]
  revert z; decide

theorem mtc (z : CopId) (rt rd : Reg) : Statement (.mtc z rt rd) := by
  simp only [Statement, tableRow, encode, and_maskCop, opcodeOf_encodeCop, rsBits_encodeCop]
  revert z; decide

theorem rfe : Statement .rfe := by
  unfold Statement; decide

end Laws.OpcodeTable
end Sys2Proof
end

