-- ==== Sys2Proof/Tests/Slice0.lean ====
section
/-! SUPPORT. Tests: the WellFormed smoke, words written out from the spec's encodings (30_encoding.md R81 to R92), one-step
tests whose expected values are the rows of 95_test_vectors.md (or follow by hand from the rule named), and a witness
for the hypotheses of every obligation that has some. -/

namespace Sys2Proof.Tests
open Sys2Proof Sys2Proof.Machine

/-! ## Helpers -/

/-- A small state: `pc` 0x1000, the given registers and bytes, all else as after reset. -/
def small (regs : List (Reg × Word)) (cells : List Host.Cell) : State :=
  regs.foldl (fun s p => s.setGpr p.1 p.2) { State.reset with pc := 0x1000, mem := Memory.ofCells cells }

/-- The four cells of a word at an address. -/
def wordAt (a : Nat) (v : Word) : List Host.Cell :=
  [(a, byteOfWord v 0), (a + 1, byteOfWord v 1), (a + 2, byteOfWord v 2), (a + 3, byteOfWord v 3)]

/-- The two words of the load vectors, `80FF7F01` and `AABBCCDD`. -/
def loadCells : List Host.Cell := wordAt 0x2000 0x80FF7F01 ++ wordAt 0x2004 0xAABBCCDD

/-- The two words of the store vectors, `11223344` and `55667788`. -/
def storeCells : List Host.Cell := wordAt 0x2000 0x11223344 ++ wordAt 0x2004 0x55667788

/-- One step of the word `w` from `s` goes on, without a halt, to a state with the property. -/
def goesTo (s : State) (w : Nat) (p : State → Bool) : Bool :=
  match step (s.withFetchWord 32 w) with
  | .next t => t.halt.isNone && p t
  | .fault _ => false
  | .refused _ => false

/-- One step of the word `w` from `s` halts for the reason and changes nothing else. -/
def haltsWith (s : State) (w : Nat) (f : Fault) : Bool :=
  match step (s.withFetchWord 32 w) with
  | .next t => t == (s.withFetchWord 32 w).haltWith f
  | .fault _ => false
  | .refused _ => false

/-- The word at an address, 0 where it cannot be read. -/
def wordIn (t : State) (a : Word) : Word :=
  match t.read32 a with
  | .ok v => v
  | .error _ => 0

/-- A next state's property; false of the other outcomes. -/
def onNext (r : Result) (p : State → Bool) : Bool :=
  match r with
  | .next t => p t
  | .fault _ => false
  | .refused _ => false

theorem exists_of_onNext {r : Result} {p : State → Bool} (h : onNext r p = true) : ∃ t, r = .next t ∧ p t = true := by
  cases r with
  | next t => exact ⟨t, rfl, h⟩
  | fault f => simp [onNext] at h
  | refused q => simp [onNext] at h

/-! ## WellFormed refuses what is not an instruction -/

theorem test_sll_amount_32_is_ill_formed : (Instr.sll 0 0 32).wellFormed = false := by decide
theorem test_srl_amount_32_is_ill_formed : (Instr.srl 3 2 32).wellFormed = false := by decide
theorem test_sra_amount_33_is_ill_formed : (Instr.sra 3 2 33).wellFormed = false := by decide
theorem test_amount_31_is_well_formed : (Instr.sll 3 2 31).wellFormed = true := by decide

/-! ## Decoding: fields opcode, rs, rt, rd, shamt, funct (R81) written out -/

theorem test_decode_zero_word_and_shifts :
    decode 0b000000_00000_00000_00000_00000_000000#32 = .instr .zeroWord ∧
    decode 0b000000_00000_00010_00011_00100_000000#32 = .instr (.sll 3 2 4) ∧
    decode 0b000000_01001_00010_00011_00001_000000#32 = .instr (.sll 3 2 1) ∧
    decode 0b000000_00000_00000_00000_00001_000000#32 = .instr (.sll 0 0 1) ∧
    decode 0b000000_00000_00010_00011_00100_000010#32 = .instr (.srl 3 2 4) ∧
    decode 0b000000_00000_00010_00011_11111_000011#32 = .instr (.sra 3 2 31) ∧
    decode 0b000000_00001_00010_00011_00000_000100#32 = .instr (.sllv 3 2 1) ∧
    decode 0b000000_00001_00010_00011_00000_000110#32 = .instr (.srlv 3 2 1) ∧
    decode 0b000000_00001_00010_00011_00000_000111#32 = .instr (.srav 3 2 1) := by decide

theorem test_decode_register_forms :
    decode 0b000000_00001_00010_00011_00000_100000#32 = .instr (.add 3 1 2) ∧
    decode 0b000000_00001_00010_00011_00000_100001#32 = .instr (.addu 3 1 2) ∧
    decode 0b000000_00001_00010_00011_00000_100011#32 = .instr (.subu 3 1 2) ∧
    decode 0b000000_00001_00010_00011_00000_100100#32 = .instr (.and 3 1 2) ∧
    decode 0b000000_00001_00010_00011_00000_100101#32 = .instr (.or 3 1 2) ∧
    decode 0b000000_00001_00010_00011_00000_100110#32 = .instr (.xor 3 1 2) ∧
    decode 0b000000_00001_00010_00011_00000_100111#32 = .instr (.nor 3 1 2) ∧
    decode 0b000000_00001_00010_00011_00000_101010#32 = .instr (.slt 3 1 2) ∧
    decode 0b000000_00001_00010_00011_00000_101011#32 = .instr (.sltu 3 1 2) := by decide

theorem test_decode_accumulator_forms :
    decode 0b000000_00000_00000_00011_00000_010000#32 = .instr (.mfhi 3) ∧
    decode 0b000000_00100_00000_00000_00000_010001#32 = .instr (.mthi 4) ∧
    decode 0b000000_00000_00000_00011_00000_010010#32 = .instr (.mflo 3) ∧
    decode 0b000000_00100_00000_00000_00000_010011#32 = .instr (.mtlo 4) ∧
    decode 0b000000_00001_00010_00000_00000_011001#32 = .instr (.multu 1 2) ∧
    decode 0b000000_00001_00010_00000_00000_011010#32 = .instr (.div 1 2) ∧
    decode 0b000000_00001_00010_00000_00000_011011#32 = .instr (.divu 1 2) := by decide

theorem test_decode_immediate_forms :
    decode 0b001000_00001_00010_1000000000000001#32 = .instr (.addi 2 1 0x8001#16) ∧
    decode 0b001001_00001_00010_1000000000000001#32 = .instr (.addiu 2 1 0x8001#16) ∧
    decode 0b001010_00001_00010_1000000000000001#32 = .instr (.slti 2 1 0x8001#16) ∧
    decode 0b001011_00001_00010_1000000000000001#32 = .instr (.sltiu 2 1 0x8001#16) ∧
    decode 0b001100_00001_00010_1000000000000001#32 = .instr (.andi 2 1 0x8001#16) ∧
    decode 0b001101_00001_00010_1000000000000001#32 = .instr (.ori 2 1 0x8001#16) ∧
    decode 0b001111_00111_00010_0001001000110100#32 = .instr (.lui 2 0x1234#16) := by decide

theorem test_decode_loads :
    decode 0b100000_00001_00010_1111111111111100#32 = .instr (.lb 2 1 0xFFFC#16) ∧
    decode 0b100001_00001_00010_1111111111111100#32 = .instr (.lh 2 1 0xFFFC#16) ∧
    decode 0b100010_00001_00010_1111111111111100#32 = .instr (.lwl 2 1 0xFFFC#16) ∧
    decode 0b100011_00001_00010_1111111111111100#32 = .instr (.lw 2 1 0xFFFC#16) ∧
    decode 0b100100_00001_00010_1111111111111100#32 = .instr (.lbu 2 1 0xFFFC#16) ∧
    decode 0b100101_00001_00010_1111111111111100#32 = .instr (.lhu 2 1 0xFFFC#16) ∧
    decode 0b100110_00001_00010_1111111111111100#32 = .instr (.lwr 2 1 0xFFFC#16) := by decide

theorem test_decode_stores :
    decode 0b101000_00001_00010_1111111111111100#32 = .instr (.sb 2 1 0xFFFC#16) ∧
    decode 0b101001_00001_00010_1111111111111100#32 = .instr (.sh 2 1 0xFFFC#16) ∧
    decode 0b101010_00001_00010_1111111111111100#32 = .instr (.swl 2 1 0xFFFC#16) ∧
    decode 0b101011_00001_00010_1111111111111100#32 = .instr (.sw 2 1 0xFFFC#16) ∧
    decode 0b101110_00001_00010_1111111111111100#32 = .instr (.swr 2 1 0xFFFC#16) := by decide

theorem test_decode_jumps_and_branches :
    decode 0b000010_00000000000000010000000000#32 = .instr (.j 0x400#26) ∧
    decode 0b000011_11111111111111111111111111#32 = .instr (.jal 0x3FFFFFF#26) ∧
    decode 0b000000_00101_00000_00000_00000_001000#32 = .instr (.jr 5) ∧
    decode 0b000000_00101_00000_00100_00000_001001#32 = .instr (.jalr 4 5) ∧
    decode 0b000100_00001_00010_0000000000000011#32 = .instr (.beq 1 2 3#16) ∧
    decode 0b000101_00001_00010_1000000000000000#32 = .instr (.bne 1 2 0x8000#16) ∧
    decode 0b000110_00001_00000_0000000000000100#32 = .instr (.blez 1 4#16) ∧
    decode 0b000111_00001_00000_0000000000000100#32 = .instr (.bgtz 1 4#16) ∧
    decode 0b000001_00001_00000_0000000000000100#32 = .instr (.bltz 1 4#16) ∧
    decode 0b000001_00001_00001_0000000000000100#32 = .instr (.bgez 1 4#16) := by decide

theorem test_decode_coprocessor_and_trap :
    decode 0b0100_00_00000_00010_01100_00000000000#32 = .instr (.mfc 0 2 12) ∧
    decode 0b0100_00_00100_00010_01100_11111111111#32 = .instr (.mtc 0 2 12) ∧
    decode 0b0100_01_00000_00010_01100_00000000000#32 = .instr (.mfc 1 2 12) ∧
    decode 0b0100_01_00100_00010_01100_00000000000#32 = .instr (.mtc 1 2 12) ∧
    decode 0b0100_10_00000_00010_01100_00000000000#32 = .instr (.mfc 2 2 12) ∧
    decode 0b0100_10_00100_00010_01100_00000000000#32 = .instr (.mtc 2 2 12) ∧
    decode 0b0100_11_00000_00010_01100_00000000000#32 = .instr (.mfc 3 2 12) ∧
    decode 0b0100_11_00100_00010_01100_00000000000#32 = .instr (.mtc 3 2 12) ∧
    decode 0b0100_00_10000_00000_00000_00000010000#32 = .instr .rfe ∧
    decode 0b0100_00_10000_00000_00000_00000000001#32 = .instr .rfe ∧
    decode 0b000000_00000_00000_00000_00000_001100#32 = .instr .syscall ∧
    decode 0b000000_11111111111111111111_001100#32 = .instr .syscall := by decide

/-- The refused words of 95_test_vectors.md 2.1. -/
theorem test_decode_unrecognised :
    decode 0xFC000000#32 = .unrecognized .primary 0x3F ∧
    decode 0x38220001#32 = .unrecognized .primary 0x0E ∧
    decode 0xC8220000#32 = .unrecognized .primary 0x32 ∧
    decode 0xE8220000#32 = .unrecognized .primary 0x3A ∧
    decode 0x0000003F#32 = .unrecognized .special 0x3F ∧
    decode 0x0000000D#32 = .unrecognized .special 0x0D ∧
    decode 0x00221822#32 = .unrecognized .special 0x22 ∧
    decode 0x00220018#32 = .unrecognized .special 0x18 ∧
    decode 0x04220004#32 = .unrecognized .regimm 0x02 ∧
    decode 0x04300004#32 = .unrecognized .regimm 0x10 ∧
    decode 0x04310004#32 = .unrecognized .regimm 0x11 ∧
    decode 0x40420000#32 = .unrecognized .coprocessor 0x02 ∧
    decode 0x48C20000#32 = .unrecognized .coprocessor 0x46 ∧
    decode 0x41000000#32 = .unrecognized .coprocessor 0x08 ∧
    decode 0x4A000010#32 = .unrecognized .coprocessor 0x50 := by decide

/-- The encoder writes the same words, and the table's word goes through the decoder of bytes. -/
theorem test_encode_words :
    encode (.addiu 2 1 0x8000#16) = 0x24228000#32 ∧ encode (.sra 3 2 31) = 0x00021FC3#32 ∧
    encode (.mtc 3 2 12) = 0x4C826000#32 ∧ encode .rfe = 0x42000010#32 ∧
    decodeTableWord 32 0x8C220004 = some (.lw 2 1 4#16) ∧ decodeTableWord 32 0xFC000000 = none := by decide

/-! ## One step (95_test_vectors.md part 2) -/

theorem test_zero_word_only_advances :
    goesTo (small [] []) 0 (fun t => t == { (small [] []).withFetchWord 32 0 with pc := 0x1004 }) = true := by decide
theorem test_add :
    goesTo (small [(1, 0x7FFFFFFF), (2, 1)] []) 0x00221820 (fun t => t.getGpr 3 == 0x80000000) = true := by decide
theorem test_addu :
    goesTo (small [(1, 0xFFFFFFFF), (2, 1)] []) 0x00221821 (fun t => t.getGpr 3 == 0) = true := by decide
theorem test_addu_into_register_0 :
    goesTo (small [(1, 5), (2, 6)] []) 0x00220021 (fun t => t.gpr == (small [(1, 5), (2, 6)] []).gpr && t.pc == 0x1004) = true := by
  decide
theorem test_subu :
    goesTo (small [(1, 0), (2, 1)] []) 0x00221823 (fun t => t.getGpr 3 == 0xFFFFFFFF) = true ∧
    goesTo (small [(1, 0x80000000), (2, 1)] []) 0x00221823 (fun t => t.getGpr 3 == 0x7FFFFFFF) = true := by decide
theorem test_and :
    goesTo (small [(1, 0xFF00FF00), (2, 0x0FF00FF0)] []) 0x00221824 (fun t => t.getGpr 3 == 0x0F000F00) = true := by decide
theorem test_or :
    goesTo (small [(1, 0xFF00FF00), (2, 0x0FF00FF0)] []) 0x00221825 (fun t => t.getGpr 3 == 0xFFF0FFF0) = true := by decide
theorem test_xor :
    goesTo (small [(1, 0xFF00FF00), (2, 0x0FF00FF0)] []) 0x00221826 (fun t => t.getGpr 3 == 0xF0F0F0F0) = true := by decide
theorem test_nor :
    goesTo (small [(1, 0xFF00FF00), (2, 0x0FF00FF0)] []) 0x00221827 (fun t => t.getGpr 3 == 0x000F000F) = true := by decide
theorem test_slt :
    goesTo (small [(1, 0xFFFFFFFF), (2, 1)] []) 0x0022182A (fun t => t.getGpr 3 == 1) = true ∧
    goesTo (small [(1, 0x80000000), (2, 0x7FFFFFFF)] []) 0x0022182A (fun t => t.getGpr 3 == 1) = true ∧
    goesTo (small [(1, 5), (2, 5)] []) 0x0022182A (fun t => t.getGpr 3 == 0) = true := by decide
theorem test_sltu :
    goesTo (small [(1, 0xFFFFFFFF), (2, 1)] []) 0x0022182B (fun t => t.getGpr 3 == 0) = true ∧
    goesTo (small [(1, 1), (2, 0xFFFFFFFF)] []) 0x0022182B (fun t => t.getGpr 3 == 1) = true := by decide
theorem test_addi :
    goesTo (small [(1, 0x80000000)] []) 0x2022FFFF (fun t => t.getGpr 2 == 0x7FFFFFFF) = true ∧
    goesTo (small [(1, 0x7FFFFFFF)] []) 0x20220001 (fun t => t.getGpr 2 == 0x80000000) = true := by decide
theorem test_addiu :
    goesTo (small [(1, 0x00008000)] []) 0x24228000 (fun t => t.getGpr 2 == 0) = true ∧
    goesTo (small [(1, 0x7FFFFFFF)] []) 0x24220001 (fun t => t.getGpr 2 == 0x80000000) = true := by decide
theorem test_slti :
    goesTo (small [(1, 0xFFFFFFFE)] []) 0x2822FFFF (fun t => t.getGpr 2 == 1) = true ∧
    goesTo (small [(1, 0)] []) 0x28228000 (fun t => t.getGpr 2 == 0) = true := by decide
theorem test_sltiu :
    goesTo (small [(1, 0x00010000)] []) 0x2C22FFFF (fun t => t.getGpr 2 == 0) = true ∧
    goesTo (small [(1, 0x0000FFFE)] []) 0x2C22FFFF (fun t => t.getGpr 2 == 1) = true ∧
    goesTo (small [(1, 0xFFFFFFFE)] []) 0x2C22FFFF (fun t => t.getGpr 2 == 0) = true := by decide
theorem test_andi :
    goesTo (small [(1, 0x12345678)] []) 0x3022FFFF (fun t => t.getGpr 2 == 0x00005678) = true := by decide
theorem test_ori :
    goesTo (small [(1, 0x12340000)] []) 0x34228000 (fun t => t.getGpr 2 == 0x12348000) = true := by decide
theorem test_lui :
    goesTo (small [(1, 0)] []) 0x3C028000 (fun t => t.getGpr 2 == 0x80000000) = true ∧
    goesTo (small [(1, 0)] []) 0x3CE21234 (fun t => t.getGpr 2 == 0x12340000) = true := by decide
theorem test_sll :
    goesTo (small [(1, 0), (2, 0x80000001)] []) 0x00021900 (fun t => t.getGpr 3 == 0x00000010) = true ∧
    goesTo (small [(1, 0), (2, 3)] []) 0x00021FC0 (fun t => t.getGpr 3 == 0x80000000) = true ∧
    goesTo (small [(1, 0), (2, 0x89ABCDEF)] []) 0x00021800 (fun t => t.getGpr 3 == 0x89ABCDEF) = true := by decide
theorem test_srl :
    goesTo (small [(1, 0), (2, 0x80000001)] []) 0x00021902 (fun t => t.getGpr 3 == 0x08000000) = true := by decide
theorem test_sra :
    goesTo (small [(1, 0), (2, 0x80000001)] []) 0x00021903 (fun t => t.getGpr 3 == 0xF8000000) = true ∧
    goesTo (small [(1, 0), (2, 0x80000000)] []) 0x00021FC3 (fun t => t.getGpr 3 == 0xFFFFFFFF) = true := by decide
theorem test_sllv :
    goesTo (small [(1, 0x21), (2, 0x40000001)] []) 0x00221804 (fun t => t.getGpr 3 == 0x80000002) = true := by decide
theorem test_srlv :
    goesTo (small [(1, 0x20), (2, 0x80000000)] []) 0x00221806 (fun t => t.getGpr 3 == 0x80000000) = true ∧
    goesTo (small [(1, 0xFFFFFFE8), (2, 0x80000000)] []) 0x00221806 (fun t => t.getGpr 3 == 0x00800000) = true := by decide
theorem test_srav :
    goesTo (small [(1, 0x24), (2, 0x80000001)] []) 0x00221807 (fun t => t.getGpr 3 == 0xF8000000) = true := by decide
theorem test_multu :
    goesTo (small [(1, 5), (2, 0x3B9ACA00)] []) 0x00220019 (fun t => t.hi == 1 && t.lo == 0x2A05F200) = true ∧
    goesTo (small [(1, 0xFFFFFFFF), (2, 0xFFFFFFFF)] []) 0x00220019 (fun t => t.hi == 0xFFFFFFFE && t.lo == 1) = true := by decide
theorem test_div :
    goesTo (small [(1, 0xFFFFFFF9), (2, 2)] []) 0x0022001A (fun t => t.hi == 0xFFFFFFFF && t.lo == 0xFFFFFFFD) = true ∧
    goesTo (small [(1, 7), (2, 0xFFFFFFFE)] []) 0x0022001A (fun t => t.hi == 1 && t.lo == 0xFFFFFFFD) = true ∧
    goesTo (small [(1, 0x80000000), (2, 0xFFFFFFFF)] []) 0x0022001A (fun t => t.hi == 0 && t.lo == 0x80000000) = true := by decide
theorem test_divu :
    goesTo (small [(1, 0xFFFFFFF9), (2, 2)] []) 0x0022001B (fun t => t.hi == 1 && t.lo == 0x7FFFFFFC) = true ∧
    goesTo (small [(1, 0x80000000), (2, 0xFFFFFFFF)] []) 0x0022001B (fun t => t.hi == 0x80000000 && t.lo == 0) = true := by decide
theorem test_div_by_zero :
    haltsWith (small [(1, 7), (2, 0)] []) 0x0022001A (.fatal .divideByZero .special 0x1A) = true := by decide
theorem test_divu_by_zero :
    haltsWith (small [(1, 7), (2, 0)] []) 0x0022001B (.fatal .divideByZero .special 0x1B) = true := by decide
theorem test_mfhi :
    goesTo { small [] [] with hi := 0xAAAA0001, lo := 0xBBBB0002 } 0x00001810 (fun t => t.getGpr 3 == 0xAAAA0001) = true := by
  decide
theorem test_mflo :
    goesTo { small [] [] with hi := 0xAAAA0001, lo := 0xBBBB0002 } 0x00001812 (fun t => t.getGpr 3 == 0xBBBB0002) = true := by
  decide
theorem test_mthi :
    goesTo { small [(4, 0x12345678)] [] with hi := 0xAAAA0001, lo := 0xBBBB0002 } 0x00800011
      (fun t => t.hi == 0x12345678 && t.lo == 0xBBBB0002) = true := by decide
theorem test_mtlo :
    goesTo { small [(4, 0x12345678)] [] with hi := 0xAAAA0001, lo := 0xBBBB0002 } 0x00800013
      (fun t => t.hi == 0xAAAA0001 && t.lo == 0x12345678) = true := by decide
theorem test_lb :
    goesTo (small [(1, 0x2000)] loadCells) 0x80220003 (fun t => t.getGpr 2 == 0xFFFFFF80) = true ∧
    goesTo (small [(1, 0x2004)] loadCells) 0x8022FFFF (fun t => t.getGpr 2 == 0xFFFFFF80) = true := by decide
theorem test_lbu :
    goesTo (small [(1, 0x2000)] loadCells) 0x90220003 (fun t => t.getGpr 2 == 0x80) = true := by decide
theorem test_lh :
    goesTo (small [(1, 0x2000)] loadCells) 0x84220002 (fun t => t.getGpr 2 == 0xFFFF80FF) = true ∧
    goesTo (small [(1, 0x2000)] loadCells) 0x84220001 (fun t => t.getGpr 2 == 0xFFFFFF7F) = true := by decide
theorem test_lhu :
    goesTo (small [(1, 0x2000)] loadCells) 0x94220002 (fun t => t.getGpr 2 == 0x80FF) = true := by decide
theorem test_lw :
    goesTo (small [(1, 0x2000)] loadCells) 0x8C220001 (fun t => t.getGpr 2 == 0xDD80FF7F) = true ∧
    goesTo (small [(1, 0x2000)] loadCells) 0x8C210000 (fun t => t.getGpr 1 == 0x80FF7F01) = true := by decide
theorem test_sb :
    goesTo (small [(1, 0x2000), (2, 0x123456AB)] storeCells) 0xA0220001 (fun t => wordIn t 0x2000 == 0x1122AB44 && wordIn t 0x2004 == 0x55667788) = true := by decide
theorem test_sh :
    goesTo (small [(1, 0x2000), (2, 0x1234BEEF)] storeCells) 0xA4220002 (fun t => wordIn t 0x2000 == 0xBEEF3344 && wordIn t 0x2004 == 0x55667788) = true ∧
    goesTo (small [(1, 0x2000), (2, 0x1234BEEF)] storeCells) 0xA4220001 (fun t => wordIn t 0x2000 == 0x11BEEF44 && wordIn t 0x2004 == 0x55667788) = true := by decide
theorem test_sw :
    goesTo (small [(1, 0x2004), (2, 0xDEADBEEF)] storeCells) 0xAC22FFFC (fun t => wordIn t 0x2000 == 0xDEADBEEF && wordIn t 0x2004 == 0x55667788) = true ∧
    goesTo (small [(1, 0x2000), (2, 0xDEADBEEF)] storeCells) 0xAC220002 (fun t => wordIn t 0x2000 == 0xBEEF3344 && wordIn t 0x2004 == 0x5566DEAD) = true := by decide
theorem test_lwl :
    goesTo (small [(1, 0x2000), (2, 0xAABBCCDD)] storeCells) 0x88220000 (fun t => t.getGpr 2 == 0x44BBCCDD) = true ∧
    goesTo (small [(1, 0x2000), (2, 0xAABBCCDD)] storeCells) 0x88220001 (fun t => t.getGpr 2 == 0x3344CCDD) = true ∧
    goesTo (small [(1, 0x2000), (2, 0xAABBCCDD)] storeCells) 0x88220002 (fun t => t.getGpr 2 == 0x223344DD) = true ∧
    goesTo (small [(1, 0x2000), (2, 0xAABBCCDD)] storeCells) 0x88220003 (fun t => t.getGpr 2 == 0x11223344) = true := by decide
theorem test_lwr :
    goesTo (small [(1, 0x2000), (2, 0xAABBCCDD)] storeCells) 0x98220000 (fun t => t.getGpr 2 == 0x11223344) = true ∧
    goesTo (small [(1, 0x2000), (2, 0xAABBCCDD)] storeCells) 0x98220001 (fun t => t.getGpr 2 == 0xAA112233) = true ∧
    goesTo (small [(1, 0x2000), (2, 0xAABBCCDD)] storeCells) 0x98220002 (fun t => t.getGpr 2 == 0xAABB1122) = true ∧
    goesTo (small [(1, 0x2000), (2, 0xAABBCCDD)] storeCells) 0x98220003 (fun t => t.getGpr 2 == 0xAABBCC11) = true := by decide
theorem test_swl :
    goesTo (small [(1, 0x2000), (2, 0xAABBCCDD)] storeCells) 0xA8220000 (fun t => wordIn t 0x2000 == 0x112233AA) = true ∧
    goesTo (small [(1, 0x2000), (2, 0xAABBCCDD)] storeCells) 0xA8220001 (fun t => wordIn t 0x2000 == 0x1122AABB) = true ∧
    goesTo (small [(1, 0x2000), (2, 0xAABBCCDD)] storeCells) 0xA8220002 (fun t => wordIn t 0x2000 == 0x11AABBCC) = true ∧
    goesTo (small [(1, 0x2000), (2, 0xAABBCCDD)] storeCells) 0xA8220003 (fun t => wordIn t 0x2000 == 0xAABBCCDD) = true := by decide
theorem test_swr :
    goesTo (small [(1, 0x2000), (2, 0xAABBCCDD)] storeCells) 0xB8220000 (fun t => wordIn t 0x2000 == 0xAABBCCDD) = true ∧
    goesTo (small [(1, 0x2000), (2, 0xAABBCCDD)] storeCells) 0xB8220001 (fun t => wordIn t 0x2000 == 0xBBCCDD44) = true ∧
    goesTo (small [(1, 0x2000), (2, 0xAABBCCDD)] storeCells) 0xB8220002 (fun t => wordIn t 0x2000 == 0xCCDD3344) = true ∧
    goesTo (small [(1, 0x2000), (2, 0xAABBCCDD)] storeCells) 0xB8220003 (fun t => wordIn t 0x2000 == 0xDD223344) = true := by decide
theorem test_j :
    goesTo (small [] []) 0x08000400 (fun t => t.pc == 0x1004 && t.pending == some 0x1000) = true := by decide
theorem test_j_takes_the_region_of_the_delay_slot :
    goesTo { small [] [] with pc := 0x0FFFFFFC } 0x08000001 (fun t => t.pending == some 0x10000004) = true := by decide
theorem test_jal :
    goesTo (small [] []) 0x0C000400 (fun t => t.pc == 0x1004 && t.pending == some 0x1000 && t.getGpr 31 == 0x1008) = true := by decide
theorem test_jal_wraps :
    goesTo { small [] [] with pc := 0xFFFFFFFC } 0x0C000100
      (fun t => t.pc == 0 && t.pending == some 0x400 && t.getGpr 31 == 4) = true := by decide
theorem test_jr :
    goesTo (small [(5, 0x2002)] []) 0x00A00008 (fun t => t.pc == 0x1004 && t.pending == some 0x2002) = true := by decide
theorem test_jalr :
    goesTo (small [(5, 0x2000)] []) 0x00A02809 (fun t => t.pc == 0x1004 && t.pending == some 0x2000 && t.getGpr 5 == 0x1008) = true ∧
    goesTo (small [(5, 0x2000)] []) 0x00A00009 (fun t => t.pc == 0x1004 && t.pending == some 0x2000 && t.getGpr 0 == 0) = true := by decide
theorem test_beq :
    goesTo (small [(1, 7), (2, 7)] []) 0x10220003 (fun t => t.pc == 0x1004 && t.pending == some 0x1010) = true ∧
    goesTo (small [(1, 7), (2, 8)] []) 0x10220003 (fun t => t.pc == 0x1004 && t.pending == none) = true ∧
    goesTo (small [] []) 0x1000FFFF (fun t => t.pc == 0x1004 && t.pending == some 0x1000) = true := by decide
theorem test_bne :
    goesTo (small [(1, 7), (2, 7)] []) 0x14228000 (fun t => t.pc == 0x1004 && t.pending == none) = true := by decide
theorem test_bne_back :
    goesTo { small [(1, 1), (2, 2)] [] with pc := 0x40000 } 0x14228000 (fun t => t.pending == some 0x20004) = true := by
  decide
theorem test_blez :
    goesTo (small [(1, 0)] []) 0x18200004 (fun t => t.pc == 0x1004 && t.pending == some 0x1014) = true ∧
    goesTo (small [(1, 0xFFFFFFFF)] []) 0x18200004 (fun t => t.pc == 0x1004 && t.pending == some 0x1014) = true ∧
    goesTo (small [(1, 1)] []) 0x18200004 (fun t => t.pc == 0x1004 && t.pending == none) = true := by decide
theorem test_bgtz :
    goesTo (small [(1, 1)] []) 0x1C200004 (fun t => t.pc == 0x1004 && t.pending == some 0x1014) = true ∧
    goesTo (small [(1, 0)] []) 0x1C200004 (fun t => t.pc == 0x1004 && t.pending == none) = true ∧
    goesTo (small [(1, 0x80000000)] []) 0x1C200004 (fun t => t.pc == 0x1004 && t.pending == none) = true := by decide
theorem test_bltz :
    goesTo (small [(1, 0x80000000)] []) 0x04200004 (fun t => t.pc == 0x1004 && t.pending == some 0x1014) = true ∧
    goesTo (small [(1, 0)] []) 0x04200004 (fun t => t.pc == 0x1004 && t.pending == none) = true := by decide
theorem test_bgez :
    goesTo (small [(1, 0)] []) 0x04210004 (fun t => t.pc == 0x1004 && t.pending == some 0x1014) = true ∧
    goesTo (small [(1, 0xFFFFFFFF)] []) 0x04210004 (fun t => t.pc == 0x1004 && t.pending == none) = true ∧
    goesTo (small [(1, 0x7FFFFFFF)] []) 0x04217FFF (fun t => t.pc == 0x1004 && t.pending == some 0x21000) = true := by decide
/-- Program P6's second step: a branch in a delay slot halts and the redirect stays owed. -/
theorem test_branch_in_delay_slot :
    haltsWith { small [] [] with pc := 0x1004, pending := some 0x100C } 0x10000002 (.branchInDelaySlot 0x1004) = true := by
  decide
/-- R32: the instruction of a delay slot runs, then control is at the target. -/
theorem test_delay_slot_then_target :
    goesTo { small [(1, 7), (2, 1)] [] with pending := some 0x2002 } 0x00221820
      (fun t => t.getGpr 3 == 8 && t.pc == 0x2002 && t.pending == none) = true := by decide
/-- R32: the target is not a multiple of 4. -/
theorem test_misaligned_fetch :
    (match step { small [] [] with pc := 0x2002 } with
     | .next t => t.halt == some (.misalignedFetch 0x2002)
     | .fault _ => false
     | .refused _ => false) = true := by decide
theorem test_mfc :
    goesTo ((small [] []).setCop 0 12 0x10000001) 0x40026000 (fun t => t.getGpr 2 == 0x10000001) = true ∧
    goesTo ((small [] []).setCop 3 12 4) 0x4C026000 (fun t => t.getGpr 2 == 4) = true := by decide
theorem test_mtc :
    goesTo (small [(2, 0xFF01)] []) 0x40826000 (fun t => t.getCop 0 12 == 0xFF01) = true ∧
    goesTo (small [(2, 7)] []) 0x4C826000 (fun t => t.getCop 3 12 == 7 && t.getCop 0 12 == 0xA5A5A5A5) = true := by decide
theorem test_rfe_by_default :
    goesTo (small [] []) 0x42000001 (fun t => t.pc == 0x1004 && t.cop == (small [] []).cop) = true := by decide
/-- R296: Status[5:2] into Status[3:0], the rest kept; by hand from the rule. -/
theorem test_rfe_r3000a :
    goesTo ({ small [] [] with params := { defaultParams with rfeEffect := .r3000a } }.setCop 0 12 0xFF000034) 0x42000010
      (fun t => t.getCop 0 12 == 0xFF00003D && t.pc == 0x1004) = true := by decide
theorem test_syscall_by_default : haltsWith (small [] []) 0x03FFFFCC (.unhandledSyscall 0x1000) = true := by decide
/-- R295 in a delay slot: EPC is the branch, Cause.BD is set, ExcCode is 8, Status is pushed; by hand from the rule. -/
theorem test_syscall_r3000a :
    goesTo ((({ small [] [] with
        params := { defaultParams with syscallEntry := .r3000a }, pending := some 0x5000 }.setCop 0 12 0x0000000D).setCop
        0 13 0x0000037C)) 0x0000000C
      (fun t => t.pc == 0x80000080 && t.pending == none && t.getCop 0 14 == 0xFFC && t.getCop 0 13 == 0x80000320 &&
        t.getCop 0 12 == 0x00000034) = true := by decide
theorem test_unrecognised_word_halts :
    haltsWith (small [] []) 0xFC000000 (.fatal .unrecognizedInstruction .primary 0x3F) = true := by decide
/-- R311 and U14: a byte that nothing has written stops the load (log 3). -/
theorem test_unwritten_read_halts :
    haltsWith (small [(1, 0x3000)] [(0x3000, 1)]) 0x84220000 (.unwrittenRead 0x3001) = true := by decide
/-- R35: a word that ends outside MEM_MAP. -/
theorem test_bus_fault :
    haltsWith { small [(1, 0x2002), (2, 1)] [] with params := { defaultParams with memMap := [⟨0x1000, 0x1004⟩] } } 0xAC220000
      (.busFault 0x2002) = true := by decide

/-! ## Witnesses: a state and operands that meet the hypotheses of each obligation -/

theorem witness_WellFormedInstructions :
    (Instr.sll 3 2 31).wellFormed = true ∧ decode 0x00021FC0#32 = .instr (.sll 3 2 31) := by decide

/-- UnrecognisedSelectorsAreReported, clause by clause, at the ends of the fields. -/
theorem witness_UnrecognisedSelectors :
    (opcodeOf 0xFC000000#32).toNat = 0x3F ∧ (opcodeOf 0x38220001#32).toNat = 0x0E ∧
    (opcodeOf 0x0000003F#32 = 0 ∧ (functOf 0x0000003F#32).toNat = 0x3F) ∧
    (opcodeOf 0x00000001#32 = 0 ∧ (functOf 0x00000001#32).toNat = 0x01) ∧
    (opcodeOf 0x04220004#32 = 1 ∧ (rtBits 0x04220004#32).toNat = 2) ∧
    (opcodeOf 0x043F0004#32 = 1 ∧ (rtBits 0x043F0004#32).toNat = 31) ∧
    ((opcodeOf 0x4A000010#32).toNat / 4 = 4 ∧ (rsBits 0x4A000010#32).toNat = 0x10 ∧ (opcodeOf 0x4A000010#32).toNat ≠ 0x10) ∧
    ((opcodeOf 0x43E00000#32).toNat / 4 = 4 ∧ (rsBits 0x43E00000#32).toNat = 0x1F) := by decide

/-- Every selector of the special table has a word that is not the zero word. -/
theorem witness_EncodedSpecial :
    ∀ f : BitVec 6, let w : Word := 0x03FFFFC0#32 ||| f.setWidth 32
      w ≠ 0 ∧ opcodeOf w = 0 ∧ functOf w = f := by decide
theorem witness_EncodedPrimary : ∀ o : BitVec 6, opcodeOf (o.setWidth 32 <<< 26) = o := by decide
theorem witness_EncodedRegimm : ∀ r : BitVec 5, let w : Word := 0x07E0FFFF#32 ||| (r.setWidth 32 <<< 16)
      opcodeOf w = 1 ∧ rtBits w = r := by decide
theorem witness_EncodedCop : ∀ r : BitVec 5, let w : Word := 0x4C1FFFFF#32 ||| (r.setWidth 32 <<< 21)
      w.extractLsb' 28 4 = 0b0100#4 ∧ rsBits w = r := by decide

/-- A running state, in no delay slot, about to run `w`. -/
def running (w : Nat) : State := (small [(1, 7), (2, 1)] storeCells).withFetchWord 32 w

theorem witness_StepRunsTheDecodedInstruction :
    (running 0x00221820).params.irqHook = .none ∧ (running 0x00221820).halt = none ∧
    (running 0x00221820).finished = false ∧ (running 0x00221820).interruptHook.fetch = .ok 0x00221820#32 ∧
    decode 0x00221820#32 = .instr (.add 3 1 2) := by decide

/-- FetchReadsTheWordAtPc: a `pc` one above a multiple of 4, one outside the map, and the last word of the space. -/
theorem witness_FetchReadsTheWordAtPc :
    { small [] [] with pc := 0xFFFFFFFD : State }.pc.toNat % 4 ≠ 0 ∧
    (let s : State := { small [] [] with pc := 0x2000, params := { defaultParams with memMap := [⟨0x1000, 0x1003⟩] } }
     s.pc.toNat % 4 = 0 ∧ s.admits s.pc 4 = false) ∧
    (let s : State := { small [] (wordAt 0xFFFFFFFC 0x03020100) with pc := 0xFFFFFFFC }
     s.pc.toNat % 4 = 0 ∧ HoldsBytes s s.pc 4 (BitVec.ofNat 8)) := by
  unfold HoldsBytes; decide

theorem witness_StepHalts :
    (State.reset.halt = none ∧ State.reset.finished = false ∧
      State.reset.interruptHook.fetch = .error (.unwrittenRead 0xBFC00000)) ∧
    ((running 0xFC000000).halt = none ∧ (running 0xFC000000).finished = false ∧
      (running 0xFC000000).interruptHook.fetch = .ok 0xFC000000#32 ∧
      decode 0xFC000000#32 = .unrecognized .primary 0x3F) := by decide

theorem witness_HaltedMachineTakesNoStep :
    (State.reset.haltWith (.busFault 0)).halt = some (.busFault 0) := by decide

theorem witness_HaltingStepChangesOnlyHalt : ∃ s t : State, step s = .next t ∧ t.halt ≠ none :=
  ⟨State.reset, State.reset.haltWith (.unwrittenRead 0xBFC00000), rfl, by decide⟩

/-- EveryStepKeepsMemoryCanonical and EveryStepKeepsParameters: a step that stores. -/
theorem witness_EveryStep : ∃ s t : State, s.Inv ∧ step s = .next t ∧ t.mem ≠ s.mem := by
  obtain ⟨t, h, ht⟩ := exists_of_onNext
    (r := step ((small [(1, 0x2000), (2, 0x99)] storeCells).withFetchWord 32 0xA0220001))
    (p := fun t => t.mem != ((small [(1, 0x2000), (2, 0x99)] storeCells).withFetchWord 32 0xA0220001).mem) (by decide)
  exact ⟨_, t, by unfold State.Inv; decide, h, by simpa using ht⟩

theorem witness_FinishedRun :
    let s : State := { State.reset with params := { defaultParams with endPc := some 0xBFC00000 } }
    s.halt = none ∧ s.pending = none ∧ s.params.endPc = some s.pc := by decide

theorem witness_PlacedWordIsFetched :
    let s : State := { State.reset with pc := 0xFFFFFFFC }
    s.pc.toNat % 4 = 0 ∧ s.admits s.pc 4 = true := by decide

/-- OtherInstructionsAdvance: with no redirect owed, at the last word of the space, and with one owed. -/
theorem witness_OtherInstructionsAdvance :
    isTransfer (.add 3 1 2) = false ∧
    onNext (exec (.add 3 1 2) { small [] [] with pc := 0xFFFFFFFC }) (fun t => t.pc == 0) = true ∧
    onNext (exec (.add 3 1 2) { small [] [] with pending := some 0x2002 }) (fun t => t.pc == 0x2002) = true := by decide

theorem witness_TransferInDelaySlotStops :
    isTransfer (.bgez 1 4#16) = true ∧ isTransfer (.j 0) = true ∧
    { small [] [] with pending := some 0 : State }.pending ≠ none := by decide

/-- DelaySlotInstructionThenTarget: a taken branch, then the zero word. -/
theorem witness_DelaySlotInstructionThenTarget :
    let s := { small [] (wordAt 0x1004 0) with params := defaultParams }.withFetchWord 32 0x10000003
    s.params.irqHook = .none ∧ s.params.syscallEntry = .unhandled ∧
    onNext (step s) (fun t => t.pending == some 0x1010 && t.halt.isNone &&
      onNext (step t) fun u => u.halt.isNone && u.pc == 0x1010) = true := by decide

theorem witness_OnlyDivisionByZeroIsFatal :
    exec (.div 1 0) (small [] []) = .fault (.fatal .divideByZero .special 0x1A) ∧
    exec (.divu 1 0) (small [] []) = .fault (.fatal .divideByZero .special 0x1B) := ⟨rfl, rfl⟩

theorem witness_CoprocessorRegistersSteerNothingElse :
    touchesCop (.swr 2 1 0#16) = false ∧ touchesCop .zeroWord = false := by decide

theorem witness_RegisterZeroAndReadAfterWrite : (31 : Reg) ≠ 0 ∧ (0 : Reg) ≠ 31 ∧ (1 : Reg) ≠ 31 := by decide

/-- MemoryPortsAreLittleEndian and the loads: accesses that end at, and that wrap past, the top of the space. -/
theorem witness_HoldsBytes :
    let s := small [(1, 0xFFFFFFFE)] (wordAt 0 0x05040302 ++ wordAt 0xFFFFFFFC 0x01000000)
    HoldsBytes s 0xFFFFFFFE 1 (BitVec.ofNat 8) ∧ HoldsBytes s 0xFFFFFFFE 2 (BitVec.ofNat 8) ∧
    HoldsBytes s 0xFFFFFFFE 4 (BitVec.ofNat 8) ∧
    HoldsBytes s (effectiveAddress s 1 0#16) 1 (BitVec.ofNat 8) ∧
    HoldsBytes s (effectiveAddress s 1 0#16) 2 (BitVec.ofNat 8) ∧
    HoldsBytes s (effectiveAddress s 1 0#16) 4 (BitVec.ofNat 8) := by
  unfold HoldsBytes; decide

/-- The stores, at the same places; MixedWidthReadSeesTheSameBytes. -/
theorem witness_Admits :
    let s := small [(1, 0xFFFFFFFE)] []
    s.admits (effectiveAddress s 1 1#16) 1 = true ∧ s.admits (effectiveAddress s 1 0#16) 2 = true ∧
    s.admits (effectiveAddress s 1 0#16) 4 = true ∧
    (match s.write32 0xFFFFFFFE 0x04030201 with | .ok t => t.mem == [(0, 3), (1, 4), (0xFFFFFFFE, 1), (0xFFFFFFFF, 2)] | .error _ => false) = true := by
  decide

/-- AccessOutsideTheMapIsBusFault: the access of each width whose last byte is the first one outside. -/
theorem witness_AccessOutsideTheMap :
    let s : State := { small [] [] with params := { defaultParams with memMap := [⟨0x1000, 0x10⟩] } }
    admittedByte s.params.memMap (0x100D + BitVec.ofNat 32 3) = false ∧ s.admits 0x1010 1 = false ∧
    s.admits 0x100F 2 = false ∧ s.admits 0x100D 4 = false ∧ s.admits 0x100C 4 = true := by decide

/-- The same by a load or a store: base register 1, the effective address at the edge of the map, the aligned word of the
partial-word forms cut by it. -/
theorem witness_InstructionOutsideTheMap :
    let s : State := { small [(1, 0x100F)] [] with params := { defaultParams with memMap := [⟨0x1000, 0xE⟩] } }
    s.admits (effectiveAddress s 1 0xFFFF#16) 1 = false ∧ s.admits (effectiveAddress s 1 0xFFFE#16) 2 = false ∧
    s.admits (effectiveAddress s 1 0xFFFC#16) 4 = false ∧
    s.admits (alignedAddress (effectiveAddress s 1 0xFFFD#16)) 4 = false := by decide

/-- ReadOfUnwrittenByteStops: the last byte of the access is the one that nothing has written. -/
theorem witness_ReadOfUnwrittenByte :
    let s := small [] [(0x2000, 1), (0x2001, 2), (0x2002, 3)]
    (s.admits 0x2003 1 = true ∧ s.mem.read 0x2003 = none) ∧
    (s.admits 0x2002 2 = true ∧ s.mem.read (0x2002 + BitVec.ofNat 32 1 : Word).toNat = none) ∧
    (s.admits 0x2000 4 = true ∧ s.mem.read (0x2000 + BitVec.ofNat 32 3 : Word).toNat = none) := by decide

/-- The same by a load or a partial-word form: base register 1, one unwritten byte, the last of each access. -/
theorem witness_InstructionReadsUnwritten :
    let s := small [(1, 0x2003)] [(0x2000, 1), (0x2001, 2), (0x2002, 3)]
    (s.admits (effectiveAddress s 1 0#16) 1 = true ∧ SomeUnwritten s (effectiveAddress s 1 0#16) 1) ∧
    (s.admits (effectiveAddress s 1 0xFFFF#16) 2 = true ∧ SomeUnwritten s (effectiveAddress s 1 0xFFFF#16) 2) ∧
    (s.admits (effectiveAddress s 1 0xFFFD#16) 4 = true ∧ SomeUnwritten s (effectiveAddress s 1 0xFFFD#16) 4) ∧
    (s.admits (alignedAddress (effectiveAddress s 1 0xFFFE#16)) 4 = true ∧
      SomeUnwritten s (alignedAddress (effectiveAddress s 1 0xFFFE#16)) 4) :=
  ⟨⟨by decide, 0, by decide, by decide⟩, ⟨by decide, 1, by decide, by decide⟩, ⟨by decide, 3, by decide, by decide⟩,
    ⟨by decide, 3, by decide, by decide⟩⟩

theorem witness_Divisors :
    (small [(1, 0x80000000), (2, 0xFFFFFFFF)] []).getGpr 2 ≠ 0 ∧ (small [] []).getGpr 0 = 0 := by decide

/-- PartialLoadsMergeBytes and PartialStoresMergeBytes: each offset of the last word of the space. -/
theorem witness_PartialWord :
    let s := small [(1, 0xFFFFFFFC)] (wordAt 0xFFFFFFFC 0x03020100)
    ∀ k : Fin 4, let ea := effectiveAddress s 1 (BitVec.ofNat 16 k.val)
      k.val = ea.toNat % 4 ∧ HoldsBytes s (alignedAddress ea) 4 (BitVec.ofNat 8) := by
  unfold HoldsBytes; decide

/-- The pairs: an aligned X, an X whose word lies across two words, and one across the end of the space. -/
theorem witness_Pairs :
    let s := small [(1, 0xFFFFFFFE), (4, 0x2000)] (wordAt 0 0 ++ wordAt 0x2000 0x03020100 ++ wordAt 0x2004 0 ++ wordAt 0xFFFFFFFC 0)
    (effectiveAddress s 4 3#16 = 0x2000 + 3 ∧ effectiveAddress s 4 0#16 = 0x2000 ∧
      HoldsBytes s (alignedAddress (0x2000 + 3)) 4 (BitVec.ofNat 8) ∧
      HoldsBytes s (alignedAddress 0x2000) 4 (BitVec.ofNat 8) ∧ HoldsBytes s 0x2000 4 (BitVec.ofNat 8)) ∧
    (effectiveAddress s 4 4#16 = 0x2001 + 3 ∧ effectiveAddress s 4 1#16 = 0x2001 ∧
      HoldsBytes s (alignedAddress (0x2001 + 3)) 4 (fun _ => 0) ∧
      HoldsBytes s (alignedAddress 0x2001) 4 (BitVec.ofNat 8) ∧
      HoldsBytes s 0x2001 4 (fun i => if i < 3 then BitVec.ofNat 8 (i + 1) else 0)) ∧
    (effectiveAddress s 1 3#16 = 0xFFFFFFFE + 3 ∧ effectiveAddress s 1 0#16 = 0xFFFFFFFE ∧
      HoldsBytes s (alignedAddress (0xFFFFFFFE + 3)) 4 (fun _ => 0) ∧
      HoldsBytes s (alignedAddress 0xFFFFFFFE) 4 (fun _ => 0) ∧ HoldsBytes s 0xFFFFFFFE 4 (fun _ => 0)) := by
  unfold HoldsBytes; decide

/-- LoadPairReadsTheUnalignedWord: the second address, in the state after the first instruction, in either order; with a
base that the first one leaves alone and with a base that it overwrites. -/
theorem witness_LoadPairSecondAddress :
    let s := small [(1, 0x2001), (3, 0x2001)] storeCells
    onNext (exec (.lwl 2 1 3#16) s) (fun t => effectiveAddress t 1 0#16 == 0x2001) = true ∧
    onNext (exec (.lwr 2 1 0#16) s) (fun t => effectiveAddress t 1 3#16 == 0x2001 + 3) = true ∧
    onNext (exec (.lwl 3 3 3#16)
        (small [(3, 0x2001)] (wordAt 0x2000 0x11223344 ++ wordAt 0x2004 0x00)))
      (fun t => effectiveAddress t 3 0#16 == 0x2001) = true := by decide

/-- Jumps and branches, outside a delay slot; the branch's target wraps below 0. -/
theorem witness_OutsideADelaySlot :
    (small [] []).pending = none ∧
    (0xFFFE1004 : Word) = BitVec.ofInt 32 ((small [] []).pc.toNat + 4 + 4 * (0x8000#16 : Half).toInt) := by decide

theorem witness_PlatformParameters :
    let p : Params := { defaultParams with syscallEntry := .platform, rfeEffect := .platform, copRead := .platform, copWrite := .platform }
    let q : Params := { defaultParams with syscallEntry := .r3000a, rfeEffect := .r3000a }
    (p.copRead = .platform ∧ p.copWrite = .platform ∧ p.rfeEffect = .platform ∧ p.syscallEntry = .platform) ∧
    (q.rfeEffect = .r3000a ∧ q.syscallEntry = .r3000a) ∧
    (State.reset.params.copRead = .plain ∧ State.reset.params.copWrite = .plain ∧
      State.reset.params.rfeEffect = .identity ∧ State.reset.params.syscallEntry = .unhandled) := by decide

theorem witness_InterruptHook :
    let s : State := { State.reset with params := { defaultParams with irqHook := .platform }, pending := some 0x2000 }
    s.params.irqHook = .platform ∧ s.Inv := by unfold State.Inv; decide

theorem witness_RfeWord : (0x42000001#32 : Word).extractLsb' 21 11 = 0b01000010000#11 := by decide

end Sys2Proof.Tests
end

section
/-! The memory ports in integers (20_memory.md R50): what a read assembles and what a write takes apart. -/

namespace Sys2Proof.Machine

/-! ### The bytes of a value, as integers (R50) -/

/-- Concatenation adds: the low part keeps its value, the high part counts 2^n times. -/
theorem toNat_append_eq_add {k n : Nat} (x : BitVec k) (y : BitVec n) :
    (x ++ y).toNat = y.toNat + 2 ^ n * x.toNat := by
  rw [BitVec.toNat_append, ← Nat.shiftLeft_add_eq_or_of_lt y.isLt, Nat.shiftLeft_eq, Nat.add_comm, Nat.mul_comm]

theorem halfOfBytes_eq_ofNat (b0 b1 : Byte) :
    halfOfBytes b0 b1 = BitVec.ofNat 16 (b0.toNat + 2 ^ 8 * b1.toNat) := by
  apply BitVec.eq_of_toNat_eq
  rw [halfOfBytes, toNat_append_eq_add, BitVec.toNat_ofNat]
  omega

theorem wordOfBytes_eq_ofNat (b0 b1 b2 b3 : Byte) :
    wordOfBytes b0 b1 b2 b3 =
      BitVec.ofNat 32 (b0.toNat + 2 ^ 8 * b1.toNat + 2 ^ 16 * b2.toNat + 2 ^ 24 * b3.toNat) := by
  apply BitVec.eq_of_toNat_eq
  simp only [wordOfBytes, toNat_append_eq_add, BitVec.toNat_ofNat]
  omega

/-- Byte `i` of a value of any width is its quotient by 2^(8i), mod 2^8. -/
theorem extractByte_eq_ofNat {w : Nat} (v : BitVec w) (i : Nat) :
    v.extractLsb' (8 * i) 8 = BitVec.ofNat 8 (v.toNat / 2 ^ (8 * i)) := by
  rw [BitVec.extractLsb', Nat.shiftRight_eq_div_pow]

theorem bytesOfHalf_getElem (v : Half) (i : Nat) (h : i < (bytesOfHalf v).length) :
    (bytesOfHalf v)[i] = BitVec.ofNat 8 (v.toNat / 2 ^ (8 * i)) := by
  rw [← extractByte_eq_ofNat]
  match i, h with
  | 0, _ | 1, _ => rfl

theorem bytesOfWord_getElem (v : Word) (i : Nat) (h : i < (bytesOfWord v).length) :
    (bytesOfWord v)[i] = BitVec.ofNat 8 (v.toNat / 2 ^ (8 * i)) := by
  rw [← extractByte_eq_ofNat]
  match i, h with
  | 0, _ | 1, _ | 2, _ | 3, _ => rfl

/-! ### An admitted write stores the bytes of its value (R35, R50) -/

theorem State.write8_of_admits {s : State} {a : Word} (h : s.admits a 1 = true) (v : Byte) :
    s.write8 a v = .ok (s.storeBytes a [v]) := if_pos h

theorem State.write16_of_admits {s : State} {a : Word} (h : s.admits a 2 = true) (v : Half) :
    s.write16 a v = .ok (s.storeBytes a (bytesOfHalf v)) := if_pos h

theorem State.write32_of_admits {s : State} {a : Word} (h : s.admits a 4 = true) (v : Word) :
    s.write32 a v = .ok (s.storeBytes a (bytesOfWord v)) := if_pos h

theorem State.storesBytes_byte (s : State) (a : Word) (v : Byte) :
    StoresBytes s (s.storeBytes a [v]) a 1 (fun _ => v) :=
  s.storesBytes_storeBytes a [v] _ (by simp) fun i h => List.getElem_singleton h

theorem State.storesBytes_half (s : State) (a : Word) (v : Half) :
    StoresBytes s (s.storeBytes a (bytesOfHalf v)) a 2 (fun i => BitVec.ofNat 8 (v.toNat / 2 ^ (8 * i))) :=
  s.storesBytes_storeBytes a (bytesOfHalf v) _ (by simp [bytesOfHalf]) (bytesOfHalf_getElem v)

theorem State.storesBytes_word (s : State) (a : Word) (v : Word) :
    StoresBytes s (s.storeBytes a (bytesOfWord v)) a 4 (fun i => BitVec.ofNat 8 (v.toNat / 2 ^ (8 * i))) :=
  s.storesBytes_storeBytes a (bytesOfWord v) _ (by simp [bytesOfWord]) (bytesOfWord_getElem v)

/-- Settles O24: a read assembles its bytes, and an admitted write stores the bytes of its value, by the same powers of
2^8 at every address. -/
theorem memoryPortsAreLittleEndian : Obligations.MemoryPortsAreLittleEndian := by
  unfold Obligations.MemoryPortsAreLittleEndian
  refine ⟨fun s a m => State.read8_eq, fun s a m h => ?_, fun s a m h => ?_, fun s a v h => ?_, fun s a v h => ?_,
    fun s a v h => ?_⟩
  · rw [State.read16_eq h, halfOfBytes_eq_ofNat]
  · rw [State.read32_eq h, wordOfBytes_eq_ofNat]
  · exact ⟨_, State.write8_of_admits h v, rfl, rfl, s.storesBytes_byte a v⟩
  · exact ⟨_, State.write16_of_admits h v, rfl, rfl, s.storesBytes_half a v⟩
  · exact ⟨_, State.write32_of_admits h v, rfl, rfl, s.storesBytes_word a v⟩

end Sys2Proof.Machine
end

section
/-! The decoder by its tables (30_encoding.md R89, R90, R94, R110): a row of the special or the primary table is all that an
`Encoded…` clause needs. -/

namespace Sys2Proof.Machine

/-- Opcode 0 hands every word but the zero word to the special table (R94, R112). -/
theorem decode_eq_decodeSpecial {w : Word} (h0 : w ≠ 0) (ho : opcodeOf w = 0) : decode w = decodeSpecial w := by
  rw [decode, if_neg h0]
  simp [decodePrimary, ho]

/-- An opcode other than 0 is read from the primary table: the zero word has opcode 0 (R94). -/
theorem decode_eq_decodePrimary {w : Word} (ho : opcodeOf w ≠ 0) : decode w = decodePrimary w :=
  if_neg (ne_zero_of_opcodeOf ho)

theorem encodedSpecial_of_row {f : BitVec 6} {i : Word → Instr}
    (h : ∀ w, functOf w = f → decodeSpecial w = .instr (i w)) : EncodedSpecial f i :=
  fun w h0 ho hf => (decode_eq_decodeSpecial h0 ho).trans (h w hf)

theorem encodedPrimary_of_row {o : BitVec 6} {i : Word → Instr} (ho : o ≠ 0)
    (h : ∀ w, opcodeOf w = o → decodePrimary w = .instr (i w)) : EncodedPrimary o i :=
  fun w hw => (decode_eq_decodePrimary (hw ▸ ho)).trans (h w hw)

end Sys2Proof.Machine
end

section
/-! The arithmetic and logical instructions (41_alu.md R130 to R146): the values they write, in integers and bits, and the
one fact about a handler that ends in a register write. -/

namespace Sys2Proof.Machine

/-! ### The values written -/

/-- The machine's sum is the sum of naturals mod 2^32 (R130). -/
theorem add_eq_ofNat_toNat (x y : Word) : x + y = BitVec.ofNat 32 (x.toNat + y.toNat) := by
  rw [BitVec.ofNat_add, BitVec.ofNat_toNat, BitVec.ofNat_toNat, BitVec.setWidth_eq, BitVec.setWidth_eq]

@[simp] theorem toInt_sext16 (imm : Half) : (sext16 imm).toInt = imm.toInt :=
  BitVec.toInt_signExtend_of_le (by decide)

/-- Adding a sign-extended immediate adds its signed value mod 2^32 (R141). -/
theorem add_sext16_eq_ofInt (x : Word) (imm : Half) : x + sext16 imm = BitVec.ofInt 32 (x.toInt + imm.toInt) := by
  rw [BitVec.ofInt_add, BitVec.ofInt_toInt, ← toInt_sext16, BitVec.ofInt_toInt]

theorem boolWord_decide (p : Prop) [Decidable p] : boolWord (decide p) = if p then 1 else 0 := by
  simp [boolWord]

/-- The bits of a zero-extended immediate: its own below bit 16, 0 above (R86). -/
theorem getLsbD_zext16 (imm : Half) {i : Nat} (hi : i < 32) :
    (zext16 imm).getLsbD i = (decide (i < 16) && imm.getLsbD i) := by
  by_cases h : i < 16
  · simp [zext16, hi, h]
  · simp [zext16, h, BitVec.getLsbD_of_ge imm i (by omega)]

/-- Shifting the immediate to the upper half multiplies it by 2^16 (R146). -/
theorem upperImmediate_eq_ofNat (imm : Half) : upperImmediate imm = BitVec.ofNat 32 (2 ^ 16 * imm.toNat) := by
  apply BitVec.eq_of_toNat_eq
  have := imm.isLt
  simp only [upperImmediate, zext16, BitVec.toNat_shiftLeft, BitVec.toNat_setWidth, BitVec.toNat_ofNat,
    Nat.shiftLeft_eq]
  omega

/-! ### A handler that ends in a register write -/

section
variable {i : Instr} {s : State} {d : Reg} {v : Word}

theorem exec_writesGpr {v' : Word} (h : exec i s = writeAndAdvance s d v) (hv : v = v') :
    ∃ t, exec i s = .next t ∧ WritesGpr s t d v' := by
  obtain ⟨t, ht, hw, -⟩ := writesGpr_writeAndAdvance s d v
  exact ⟨t, h.trans ht, hv ▸ hw⟩

/-- The same where the written value is told by a property of it (its bits, R133 to R136). -/
theorem exec_writesGpr_satisfying {p : Word → Prop} (h : exec i s = writeAndAdvance s d v) (hv : p v) :
    ∃ t u, exec i s = .next t ∧ WritesGpr s t d u ∧ p u := by
  obtain ⟨t, ht, hw⟩ := exec_writesGpr h rfl
  exact ⟨t, v, ht, hw, hv⟩

end

/-! ### The statements -/

/-- Settles O35: each row of the primary table, the bits of the zero-extended operand, and lui's product by 2^16. -/
theorem andiOriLuiZeroExtend : Obligations.AndiOriLuiZeroExtend := by
  unfold Obligations.AndiOriLuiZeroExtend
  refine ⟨encodedPrimary_of_row (by decide) fun _ h => by simp [decodePrimary, h],
    encodedPrimary_of_row (by decide) fun _ h => by simp [decodePrimary, h],
    encodedPrimary_of_row (by decide) fun _ h => by simp [decodePrimary, h],
    fun rt rs imm s => ⟨?_, ?_, ?_⟩⟩
  · exact exec_writesGpr_satisfying rfl fun k hk => by rw [BitVec.getLsbD_and, getLsbD_zext16 imm hk]
  · exact exec_writesGpr_satisfying rfl fun k hk => by rw [BitVec.getLsbD_or, getLsbD_zext16 imm hk]
  · exact exec_writesGpr rfl (upperImmediate_eq_ofNat imm)

/-- Settles O28: both instructions write the machine's sum, and their handler completes in every state. -/
theorem addAndAdduWriteTheSum : Obligations.AddAndAdduWriteTheSum := by
  unfold Obligations.AddAndAdduWriteTheSum
  refine ⟨encodedSpecial_of_row fun _ h => by simp [decodeSpecial, h],
    encodedSpecial_of_row fun _ h => by simp [decodeSpecial, h],
    fun rd rs rt s => ⟨?_, ?_⟩⟩
  · exact exec_writesGpr rfl (add_eq_ofNat_toNat _ _)
  · exact exec_writesGpr rfl (add_eq_ofNat_toNat _ _)

/-- Settles O30: each instruction is one operation of the words, told bit by bit. -/
theorem bitwiseInstructionsActOnEachBit : Obligations.BitwiseInstructionsActOnEachBit := by
  unfold Obligations.BitwiseInstructionsActOnEachBit
  refine ⟨encodedSpecial_of_row fun _ h => by simp [decodeSpecial, h],
    encodedSpecial_of_row fun _ h => by simp [decodeSpecial, h],
    encodedSpecial_of_row fun _ h => by simp [decodeSpecial, h],
    encodedSpecial_of_row fun _ h => by simp [decodeSpecial, h],
    fun rd rs rt s => ⟨?_, ?_, ?_, ?_⟩⟩
  · exact exec_writesGpr_satisfying rfl fun _ _ => BitVec.getLsbD_and
  · exact exec_writesGpr_satisfying rfl fun _ _ => BitVec.getLsbD_or
  · exact exec_writesGpr_satisfying rfl fun _ _ => BitVec.getLsbD_xor
  · exact exec_writesGpr_satisfying rfl fun k hk => by simp [hk]

/-- Settles O31: the comparison's truth value, written as the word 0 or 1. -/
theorem setOnLessThanWritesZeroOrOne : Obligations.SetOnLessThanWritesZeroOrOne := by
  unfold Obligations.SetOnLessThanWritesZeroOrOne
  refine ⟨encodedSpecial_of_row fun _ h => by simp [decodeSpecial, h],
    encodedSpecial_of_row fun _ h => by simp [decodeSpecial, h],
    fun rd rs rt s => ⟨?_, ?_⟩⟩
  · exact exec_writesGpr rfl (boolWord_decide _)
  · exact exec_writesGpr rfl (boolWord_decide _)

/-- Settles O32: the sign-extended immediate has the immediate's signed value, for the sum and for the comparison. -/
theorem addiuAndSltiSignExtend : Obligations.AddiuAndSltiSignExtend := by
  unfold Obligations.AddiuAndSltiSignExtend
  refine ⟨encodedPrimary_of_row (by decide) fun _ h => by simp [decodePrimary, h],
    encodedPrimary_of_row (by decide) fun _ h => by simp [decodePrimary, h],
    fun rt rs imm s => ⟨?_, ?_⟩⟩
  · exact exec_writesGpr rfl (add_sext16_eq_ofInt _ imm)
  · exact exec_writesGpr rfl (by rw [lessSigned, toInt_sext16, boolWord_decide])

end Sys2Proof.Machine
end

section
/-! Multiply and the reads of HI and LO (43_muldiv.md R170, R173, R174): the frame of a write of the accumulator pair, and
the two halves of an exact product. -/

namespace Sys2Proof.Machine

/-! ### The frame of an accumulator write -/

/-- A handler that ends in a write of HI and LO writes them and nothing else, and advances. -/
theorem writesHiLo_writeHiLo (s : State) (hi lo : Word) :
    ∃ t, writeHiLo s hi lo = .next t ∧ WritesHiLo s t hi lo ∧ Advanced s t := by
  refine ⟨_, rfl, ⟨by simp, by simp, fun r => by simp, fun z r => by simp, fun a => by simp, ⟨by simp, by simp⟩⟩, ?_⟩
  have := ((s.setLo lo).setHi hi).advanced_advance
  simpa [Advanced] using this

theorem exec_writesHiLo {i : Instr} {s : State} {hi lo : Word} (h : exec i s = writeHiLo s hi lo) :
    ∃ t, exec i s = .next t ∧ WritesHiLo s t hi lo := by
  obtain ⟨t, ht, hw, -⟩ := writesHiLo_writeHiLo s hi lo
  exact ⟨t, h.trans ht, hw⟩

/-! ### The product -/

/-- A number below 2^64 is the two words of its halves. -/
theorem toNat_highWord_add_lowWord {p : Nat} (hp : p < 2 ^ 64) :
    (BitVec.ofNat 32 (p / 2 ^ 32)).toNat * 2 ^ 32 + (BitVec.ofNat 32 p).toNat = p := by
  simp only [BitVec.toNat_ofNat]
  omega

/-- No product of two words needs more than 64 bits (R170). -/
theorem toNat_mul_toNat_lt (x y : Word) : x.toNat * y.toNat < 2 ^ 64 :=
  (Nat.mul_lt_mul'' x.isLt y.isLt).trans_eq (Nat.pow_add 2 32 32).symm

/-! ### The statements -/

/-- Settles O38: the product of two words is below 2^64, so its two halves lose nothing. -/
theorem multuGivesTheExactProduct : Obligations.MultuGivesTheExactProduct := by
  unfold Obligations.MultuGivesTheExactProduct
  refine ⟨encodedSpecial_of_row fun _ h => by simp [decodeSpecial, h], fun rs rt s => ?_⟩
  obtain ⟨t, ht, hw⟩ := exec_writesHiLo (i := .multu rs rt) (s := s) rfl
  exact ⟨t, _, _, ht, hw, toNat_highWord_add_lowWord (toNat_mul_toNat_lt _ _)⟩

/-- Settles O42: each handler is the write of the accumulator to `rd`, whose frame holds HI and LO. -/
theorem mfhiAndMfloCopyTheAccumulator : Obligations.MfhiAndMfloCopyTheAccumulator := by
  unfold Obligations.MfhiAndMfloCopyTheAccumulator
  refine ⟨encodedSpecial_of_row fun _ h => by simp [decodeSpecial, h],
    encodedSpecial_of_row fun _ h => by simp [decodeSpecial, h],
    fun rd s => ⟨?_, ?_⟩⟩
  · exact exec_writesGpr rfl rfl
  · exact exec_writesGpr rfl rfl

end Sys2Proof.Machine
end

section
/-! The decoder against the encoder and the tables (30_encoding.md R82 to R95): the canonical word read back, what a decoded
instruction satisfies, and the selectors no table lists. -/

namespace Sys2Proof.Machine

/-! ### The canonical words (R82 to R85) -/

theorem decode_encodeR {funct : BitVec 6} (hf : funct ≠ 0) (rs rt rd : Reg) (shamt : Nat) :
    decode (encodeR rs rt rd shamt funct) = decodeSpecial (encodeR rs rt rd shamt funct) :=
  decode_eq_decodeSpecial (ne_zero_of_functOf (by simpa using hf)) (by simp)

theorem decode_encodeI {opcode : BitVec 6} (ho : opcode ≠ 0) (rs rt : Reg) (imm : Half) :
    decode (encodeI opcode rs rt imm) = decodePrimary (encodeI opcode rs rt imm) :=
  decode_eq_decodePrimary (by simpa using ho)

theorem decode_encodeJ {opcode : BitVec 6} (ho : opcode ≠ 0) (target : BitVec 26) :
    decode (encodeJ opcode target) = decodePrimary (encodeJ opcode target) :=
  decode_eq_decodePrimary (by simpa using ho)

/-- Opcode 1 hands the word to the regimm table (R114). -/
theorem decode_eq_decodeRegimm {w : Word} (ho : opcodeOf w = 1) : decode w = decodeRegimm w := by
  rw [decode_eq_decodePrimary (by rw [ho]; decide)]
  simp [decodePrimary, ho]

/-- The opcodes 0x10 to 0x13 are the coprocessor level's (R85, R115). -/
theorem decode_eq_decodeCop {w : Word} (h : (opcodeOf w).toNat / 4 = 4) : decode w = decodeCop w := by
  have hne : opcodeOf w ≠ 0 := fun h0 => by simp [h0] at h
  have hrow : (opcodeOf w).toNat = 0x10 ∨ (opcodeOf w).toNat = 0x11 ∨ (opcodeOf w).toNat = 0x12 ∨
      (opcodeOf w).toNat = 0x13 := by omega
  rw [decode_eq_decodePrimary hne, decodePrimary]
  rcases hrow with h | h | h | h <;> simp only [h]

theorem decode_encodeCop (z : CopId) (sub : BitVec 5) (rt rd : Reg) (low : BitVec 11) :
    decode (encodeCop z sub rt rd low) = decodeCop (encodeCop z sub rt rd low) := by
  apply decode_eq_decodeCop
  rw [opcodeOf_encodeCop, toNat_append_eq_add, BitVec.toNat_ofNat, BitVec.toNat_ofNat]
  omega

@[simp] theorem bitsOfReg_zero : bitsOfReg 0 = 0#5 := rfl

@[simp] theorem bitsOfReg_one : bitsOfReg 1 = 1#5 := rfl

theorem bitsOfReg_eq_zero_iff {r : Reg} : bitsOfReg r = 0#5 ↔ r = 0 := by revert r; decide

/-- The canonical word of `sll` is not the zero word: where all its operands are 0 its `rs` field is 1 (R94, log 10). -/
theorem encode_sll_ne_zero {rd rt : Reg} {shamt : Nat} (hs : shamt < 32) : encode (.sll rd rt shamt) ≠ 0 := by
  by_cases h : rd = 0 ∧ rt = 0 ∧ shamt = 0
  · exact ne_zero_of_rsBits (by simp [encode, h])
  · intro hw
    refine h ⟨?_, ?_, ?_⟩
    · have : rdBits (encode (.sll rd rt shamt)) = 0 := by rw [hw]; decide
      simpa [encode, bitsOfReg_eq_zero_iff] using this
    · have : rtBits (encode (.sll rd rt shamt)) = 0 := by rw [hw]; decide
      simpa [encode, bitsOfReg_eq_zero_iff] using this
    · have : shamtBits (encode (.sll rd rt shamt)) = 0 := by rw [hw]; decide
      have := congrArg BitVec.toNat this
      simpa [encode, Nat.mod_eq_of_lt hs] using this

/-- Settles O2, format by format: the selectors of the canonical word choose the instruction's row, and each of its fields is
read back. -/
theorem decodeOfEncodeGivesTheInstruction : Obligations.DecodeOfEncodeGivesTheInstruction := by
  unfold Obligations.DecodeOfEncodeGivesTheInstruction
  intro i hwf
  cases i with
  | zeroWord => rfl
  | sll rd rt shamt =>
    have hs : shamt < 32 := of_decide_eq_true hwf
    rw [decode_eq_decodeSpecial (encode_sll_ne_zero hs) (by simp [encode])]
    simp [encode, decodeSpecial, rdOf, rtOf, shamtOf, Nat.mod_eq_of_lt hs]
  | srl rd rt shamt | sra rd rt shamt =>
    have hs : shamt < 32 := of_decide_eq_true hwf
    rw [encode, decode_encodeR (by decide)]
    simp [decodeSpecial, rdOf, rtOf, shamtOf, Nat.mod_eq_of_lt hs]
  | bltz rs offset | bgez rs offset =>
    rw [encode, decode_encodeI (by decide)]
    simp [decodePrimary, decodeRegimm, rsOf]
  | j target | jal target =>
    rw [encode, decode_encodeJ (by decide)]
    simp [decodePrimary]
  | beq rs rt offset | bne rs rt offset | blez rs offset | bgtz rs offset
  | addi rt rs imm | addiu rt rs imm | slti rt rs imm | sltiu rt rs imm | andi rt rs imm | ori rt rs imm | lui rt imm
  | lb rt base offset | lh rt base offset | lwl rt base offset | lw rt base offset | lbu rt base offset
  | lhu rt base offset | lwr rt base offset | sb rt base offset | sh rt base offset | swl rt base offset
  | sw rt base offset | swr rt base offset =>
    rw [encode, decode_encodeI (by decide)]
    simp [decodePrimary, rsOf, rtOf]
  | mfc z rt rd | mtc z rt rd | rfe =>
    rw [encode, decode_encodeCop]
    simp [decodeCop, rtOf, rdOf]
  | _ =>
    rw [encode, decode_encodeR (by decide)]
    simp [decodeSpecial, rdOf, rtOf, rsOf]

/-! ### What a decoded instruction satisfies -/

/-- An instruction of the tables: well-formed, and not the zero word, which is tested before them (R94, R111). -/
def InTables (i : Instr) : Prop := i.wellFormed = true ∧ i ≠ .zeroWord

theorem inTables_of_decodeSpecial {w : Word} {i : Instr} (h : decodeSpecial w = .instr i) : InTables i := by
  have hs : decide (shamtOf w < 32) = true := decide_eq_true (shamtBits w).isLt
  unfold decodeSpecial at h
  split at h
  case h_1 | h_2 | h_3 => cases h; exact ⟨hs, nofun⟩
  all_goals cases h
  all_goals exact ⟨rfl, nofun⟩

theorem inTables_of_decodeRegimm {w : Word} {i : Instr} (h : decodeRegimm w = .instr i) : InTables i := by
  unfold decodeRegimm at h
  split at h <;> cases h
  all_goals exact ⟨rfl, nofun⟩

theorem inTables_of_decodeCop {w : Word} {i : Instr} (h : decodeCop w = .instr i) : InTables i := by
  unfold decodeCop at h
  split_ifs at h <;> cases h
  all_goals exact ⟨rfl, nofun⟩

theorem inTables_of_decodePrimary {w : Word} {i : Instr} (h : decodePrimary w = .instr i) : InTables i := by
  unfold decodePrimary at h
  split at h
  case h_1 => exact inTables_of_decodeSpecial h
  case h_2 => exact inTables_of_decodeRegimm h
  case h_16 | h_17 | h_18 | h_19 => exact inTables_of_decodeCop h
  all_goals cases h
  all_goals exact ⟨rfl, nofun⟩

/-- The decoder's answers (R110): the zero word for the word 0, an instruction of the tables for any other. -/
theorem decode_eq_instr {w : Word} {i : Instr} (h : decode w = .instr i) :
    (w = 0 ∧ i = .zeroWord) ∨ (w ≠ 0 ∧ InTables i) := by
  unfold decode at h
  split at h
  · next hw => cases h; exact .inl ⟨hw, rfl⟩
  · next hw => exact .inr ⟨hw, inTables_of_decodePrimary h⟩

/-- Settles O3: only a fixed shift can be ill-formed, and its amount is read from a 5-bit field. -/
theorem decodedInstructionsAreWellFormed : Obligations.DecodedInstructionsAreWellFormed := by
  unfold Obligations.DecodedInstructionsAreWellFormed
  intro w i h
  obtain ⟨-, rfl⟩ | ⟨-, hwf, -⟩ := decode_eq_instr h
  · rfl
  · exact hwf

/-! ### The frame of an advance -/

/-- An advance changes the program counter and the owed redirect only. -/
theorem State.onlyControl_advance (s : State) : OnlyControl s s.advance :=
  ⟨fun r => by simp, ⟨by simp, by simp⟩, fun z r => by simp, fun a => by simp, ⟨by simp, by simp⟩⟩

/-- Settles O4: no row of a table gives the zero word, and its handler is the advance alone. -/
theorem zeroWordIsTheOnlyNoOp : Obligations.ZeroWordIsTheOnlyNoOp := by
  unfold Obligations.ZeroWordIsTheOnlyNoOp
  refine ⟨fun w => ⟨fun h => ?_, ?_⟩, fun s => ⟨s.advance, rfl, s.onlyControl_advance, s.advanced_advance⟩⟩
  · obtain ⟨hw, -⟩ | ⟨-, -, hne⟩ := decode_eq_instr h
    · exact hw
    · exact absurd rfl hne
  · rintro rfl; rfl

/-! ### Selectors outside the tables (R95, R118) -/

theorem copIdBits_toNat (w : Word) : (copIdBits w).toNat = (opcodeOf w).toNat % 4 := by
  simp only [copIdBits, opcodeOf, BitVec.extractLsb'_toNat]
  omega

theorem decodeCop_unrecognized {w : Word} (h0 : rsBits w ≠ 0x00#5) (h4 : rsBits w ≠ 0x04#5)
    (hr : ¬ (rsBits w = 0x10#5 ∧ copIdBits w = 0#2)) :
    decodeCop w = .unrecognized .coprocessor (32 * ((opcodeOf w).toNat % 4) + (rsBits w).toNat) := by
  rw [decodeCop, if_neg h0, if_neg h4, if_neg hr, toNat_append_eq_add, copIdBits_toNat, Nat.add_comm]
  rfl

/-- Settles O5: at each level the selectors of the table are all that its match lists. -/
theorem unrecognisedSelectorsAreReported : Obligations.UnrecognisedSelectorsAreReported := by
  unfold Obligations.UnrecognisedSelectorsAreReported
  refine ⟨fun w h => ?_, fun w ho h => ?_, fun w ho h => ?_, fun w ho h hr => ?_⟩
  · have hne : opcodeOf w ≠ 0 := fun h0 => by simp [h0] at h
    rw [decode_eq_decodePrimary hne, decodePrimary]
    split
    case h_32 => rfl
    all_goals next hsel => simp [hsel] at h
  · have hne : functOf w ≠ 0 := fun h0 => by simp [h0] at h
    rw [decode_eq_decodeSpecial (ne_zero_of_functOf hne) ho, decodeSpecial]
    split
    case h_26 => rfl
    all_goals next hsel => simp [hsel] at h
  · rw [decode_eq_decodeRegimm ho, decodeRegimm]
    split
    case h_3 => rfl
    all_goals next hsel => simp [hsel] at h
  · rw [decode_eq_decodeCop ho]
    refine decodeCop_unrecognized (fun h0 => ?_) (fun h4 => ?_) (fun ⟨hrs, hz⟩ => hr ⟨by simp [hrs], ?_⟩)
    · simp [h0] at h
    · simp [h4] at h
    · have := copIdBits_toNat w
      simp only [hz, BitVec.toNat_ofNat] at this
      omega

/-- Settles O1: the decoder, run on the written-out words. -/
theorem writtenOutWordsDecode : Obligations.WrittenOutWordsDecode := by
  unfold Obligations.WrittenOutWordsDecode
  decide

end Sys2Proof.Machine
end

section
/-! What a step can do (10_state.md R32, R39; 60_exceptions.md R298; 70_reset_and_hazards.md R316), said once, and what
every step keeps. -/

namespace Sys2Proof.Machine

/-! ### The step by its cases -/

theorem State.settle_eq_next {s t : State} {r : Result} :
    s.settle r = .next t ↔ r = .next t ∨ ∃ f, r = .fault f ∧ t = s.haltWith f := by
  cases r <;> simp [State.settle, eq_comm]

theorem State.dispatch_eq_next {s t : State} {w : Word} :
    s.dispatch w = .next t ↔ ∃ i, decode w = .instr i ∧ exec i s = .next t := by
  unfold State.dispatch
  split <;> simp [*]

theorem step_of_running {s : State} (hh : s.halt = none) (hf : s.finished = false) :
    step s = s.interruptHook.fetchAndDispatch := by
  simp [step, State.cycle, hh, hf]

theorem step_of_finished {s : State} (hh : s.halt = none) (hf : s.finished = true) : step s = .next s := by
  simp [step, hh, hf]

/-- How a step goes on from `s`: the run is finished and stays; the fetch or the dispatch stops, which halts the state the
hook leaves; or the fetched instruction completes in that state. -/
inductive StepCase (s : State) : State → Prop
  | finished (h : s.finished = true) : StepCase s s
  | halts (f : Fault) : StepCase s (s.interruptHook.haltWith f)
  | executes {t : State} (i : Instr) (h : exec i s.interruptHook = .next t) : StepCase s t

/-- A step that goes on began in a running machine, and is one of these. -/
theorem step_eq_next {s t : State} (h : step s = .next t) : s.halt = none ∧ StepCase s t := by
  cases hh : s.halt with
  | some f => simp [step, hh] at h
  | none =>
    refine ⟨rfl, ?_⟩
    cases hf : s.finished with
    | true =>
      rw [step_of_finished hh hf] at h
      cases h; exact .finished hf
    | false =>
      rw [step_of_running hh hf] at h
      obtain h | ⟨f, -, rfl⟩ := State.settle_eq_next.1 h
      · obtain ⟨w, -, hw⟩ := orFault_eq_next.1 h
        obtain ⟨i, -, hi⟩ := State.dispatch_eq_next.1 hw
        exact .executes i hi
      · exact .halts f

/-! ### What a step keeps -/

/-- A step keeps the parameters and memory's canonical form: so do the hook, the halt and every instruction. -/
theorem step_keeps {s t : State} (h : step s = .next t) : t.params = s.params ∧ (s.Inv → t.Inv) := by
  obtain ⟨-, hc⟩ := step_eq_next h
  obtain ⟨-, hhookParams, hhookMem⟩ := s.keepsSetup_interruptHook
  cases hc with
  | finished => exact ⟨rfl, id⟩
  | halts f => exact ⟨hhookParams, hhookMem⟩
  | executes i hi =>
    obtain ⟨-, hparams, hmem⟩ := s.keepsSetup_interruptHook.trans (keepsSetup_exec hi)
    exact ⟨hparams, hmem⟩

/-- Settles O11: the hook's memory is canonical, and every instruction keeps the form. -/
theorem everyStepKeepsMemoryCanonical : Obligations.EveryStepKeepsMemoryCanonical := by
  unfold Obligations.EveryStepKeepsMemoryCanonical
  exact fun s t hInv h => (step_keeps h).2 hInv

/-- Settles O14: neither the hook nor an instruction writes the parameters. -/
theorem everyStepKeepsParameters : Obligations.EveryStepKeepsParameters := by
  unfold Obligations.EveryStepKeepsParameters
  exact fun s t h => (step_keeps h).1

/-- Settles O10: of the ways a step goes on, only the halt sets `halt`. -/
theorem haltingStepChangesOnlyHalt : Obligations.HaltingStepChangesOnlyHalt := by
  unfold Obligations.HaltingStepChangesOnlyHalt
  intro s t h ht
  obtain ⟨hh, hc⟩ := step_eq_next h
  cases hc with
  | finished => exact absurd hh ht
  | halts f => exact ⟨f, rfl⟩
  | executes i hi =>
    obtain ⟨hhalt, -, -⟩ := s.keepsSetup_interruptHook.trans (keepsSetup_exec hi)
    exact absurd (hhalt.trans hh) ht

/-! ### The step of a machine that runs, has halted or is finished -/

theorem State.interruptHook_of_none {s : State} (h : s.params.irqHook = .none) : s.interruptHook = s := by
  simp [State.interruptHook, h]

/-- Settles O6: with the fetch and the decoding given, the step is the instruction, its fault turned into the halt. -/
theorem stepRunsTheDecodedInstruction : Obligations.StepRunsTheDecodedInstruction := by
  unfold Obligations.StepRunsTheDecodedInstruction
  refine ⟨fun s => State.interruptHook_of_none, fun s w i hh hf hfetch hdec => ?_⟩
  rw [step_of_running hh hf, State.fetchAndDispatch, hfetch, orFault_ok, State.dispatch, hdec]
  rfl

/-- Settles O8: a stop of the fetch and the dispatcher's fatal both end in the halt of the state the hook leaves. -/
theorem stepHaltsOnFetchFaultOrUnrecognisedWord : Obligations.StepHaltsOnFetchFaultOrUnrecognisedWord := by
  unfold Obligations.StepHaltsOnFetchFaultOrUnrecognisedWord
  refine fun s hh hf => ⟨fun f hfetch => ?_, fun w level value hfetch hdec => ?_⟩
  · rw [step_of_running hh hf, State.fetchAndDispatch, hfetch]
    rfl
  · rw [step_of_running hh hf, State.fetchAndDispatch, hfetch, orFault_ok, State.dispatch, hdec]
    rfl

/-- Settles O9: `halt` is the first thing a step looks at. -/
theorem haltedMachineTakesNoStep : Obligations.HaltedMachineTakesNoStep := by
  unfold Obligations.HaltedMachineTakesNoStep
  intro s f h
  simp [step, h]

/-- Settles O15: the three conditions are the test `finished`. -/
theorem finishedRunStaysInItsFinalState : Obligations.FinishedRunStaysInItsFinalState := by
  unfold Obligations.FinishedRunStaysInItsFinalState
  intro s hh hp he
  exact step_of_finished hh (by simp [State.finished, hh, hp, he])

end Sys2Proof.Machine
end

section
/-! The program counter's rule over all instructions (10_state.md R32 to R34, 46_control.md R250): what advances, what stops
in a delay slot, and what becomes of an owed redirect. -/

namespace Sys2Proof.Machine

/-! ### Instructions that advance -/

/-- The advance after an update that keeps the program counter and the owed redirect. -/
theorem advanced_advance_of_same {s u : State} (hpc : u.pc = s.pc) (hp : u.pending = s.pending) :
    Advanced s u.advance := by
  have := u.advanced_advance
  rwa [Advanced, hpc, hp] at this

@[simp] theorem State.returnFromException_pc (s : State) : s.returnFromException.pc = s.pc := by
  unfold State.returnFromException; split <;> rfl

@[simp] theorem State.returnFromException_pending (s : State) : s.returnFromException.pending = s.pending := by
  unfold State.returnFromException; split <;> rfl

theorem advanced_of_writeAndAdvance {s t : State} {d : Reg} {v : Word} (h : writeAndAdvance s d v = .next t) :
    Advanced s t := by
  cases h; exact advanced_advance_of_same (by simp) (by simp)

theorem advanced_of_writeHiLo {s t : State} {hi lo : Word} (h : writeHiLo s hi lo = .next t) : Advanced s t := by
  cases h; exact advanced_advance_of_same rfl rfl

theorem advanced_of_loadInto {s t : State} {rt : Reg} {x : Except Fault Word} (h : loadInto s rt x = .next t) :
    Advanced s t := by
  obtain ⟨v, -, hv⟩ := orFault_eq_next.1 h; exact advanced_of_writeAndAdvance hv

/-- Where the write completes, it has stored bytes in `s` and done nothing else. -/
def StoresOnly (s : State) (x : Except Fault State) : Prop := ∀ u, x = .ok u → ∃ a bytes, u = s.storeBytes a bytes

theorem storesOnly_write8 (s : State) (a : Word) (v : Byte) : StoresOnly s (s.write8 a v) :=
  fun _ h => ⟨a, [v], (State.write8_ok h).2⟩

theorem storesOnly_write16 (s : State) (a : Word) (v : Half) : StoresOnly s (s.write16 a v) :=
  fun _ h => ⟨a, bytesOfHalf v, (State.write16_ok h).2⟩

theorem storesOnly_write32 (s : State) (a v : Word) : StoresOnly s (s.write32 a v) :=
  fun _ h => ⟨a, bytesOfWord v, (State.write32_ok h).2⟩

theorem advanced_of_storeAndAdvance {s t : State} {x : Except Fault State} (hx : StoresOnly s x)
    (h : storeAndAdvance x = .next t) : Advanced s t := by
  obtain ⟨u, hu, hv⟩ := orFault_eq_next.1 h
  obtain ⟨a, bytes, rfl⟩ := hx u hu
  cases hv; exact advanced_advance_of_same rfl rfl

theorem advanced_of_mergeStore {s t : State} {rt : Reg} {ea : Word} {f : Word → Word → Word}
    (h : mergeStore s rt ea f = .next t) : Advanced s t := by
  obtain ⟨m, -, hm⟩ := orFault_eq_next.1 h
  exact advanced_of_storeAndAdvance (storesOnly_write32 _ _ _) hm

/-- Every completed instruction but a transfer or a system call ends in the advance of R32. -/
theorem advanced_of_exec {i : Instr} {s t : State} (hi : isTransfer i = false) (hsys : i ≠ .syscall)
    (h : exec i s = .next t) : Advanced s t := by
  cases i with
  | j | jal | jr | jalr | beq | bne | blez | bgtz | bltz | bgez => cases hi
  | syscall => exact absurd rfl hsys
  | zeroWord => cases h; exact s.advanced_advance
  | mthi rs | mtlo rs => cases h; exact advanced_advance_of_same rfl rfl
  | multu rs rt => exact advanced_of_writeHiLo h
  | div rs rt | divu rs rt =>
    simp only [exec, execDiv, execDivu] at h
    split at h
    · cases h
    · exact advanced_of_writeHiLo h
  | lb | lbu | lh | lhu | lw | lwl | lwr => exact advanced_of_loadInto h
  | sb => exact advanced_of_storeAndAdvance (storesOnly_write8 _ _ _) h
  | sh => exact advanced_of_storeAndAdvance (storesOnly_write16 _ _ _) h
  | sw => exact advanced_of_storeAndAdvance (storesOnly_write32 _ _ _) h
  | swl | swr => exact advanced_of_mergeStore h
  | mfc z rt rd => exact advanced_of_writeAndAdvance h
  | mtc z rt rd => cases h; exact advanced_advance_of_same rfl rfl
  | rfe => cases h; exact advanced_advance_of_same (by simp) (by simp)
  | _ => exact advanced_of_writeAndAdvance h

/-- Settles O17: every such handler ends in the advance, of a state with the program counter and redirect it began with. -/
theorem otherInstructionsAdvance : Obligations.OtherInstructionsAdvance := by
  unfold Obligations.OtherInstructionsAdvance
  exact fun i s t => advanced_of_exec

/-! ### Transfers in a delay slot (R33, R34) -/

section
variable {s : State} {x : Word}

theorem jumpTo_inSlot (h : s.pending = some x) (a : Word) : jumpTo s a = .fault (.branchInDelaySlot s.pc) := by
  rw [jumpTo, State.jp_inSlot h, orFault_error]

theorem jumpAndLink_inSlot (h : s.pending = some x) (a : Word) (r : Reg) :
    jumpAndLink s a r = .fault (.branchInDelaySlot s.pc) := by
  rw [jumpAndLink, State.jp_inSlot h, orFault_error]

theorem branchOn_inSlot (h : s.pending = some x) (c : Bool) (o : Half) :
    branchOn s c o = .fault (.branchInDelaySlot s.pc) := by
  rw [branchOn, State.branch_inSlot h, orFault_error]

theorem exec_transfer_inSlot {i : Instr} (hi : isTransfer i = true) (h : s.pending = some x) :
    exec i s = .fault (.branchInDelaySlot s.pc) := by
  cases i with
  | j | jr => exact jumpTo_inSlot h _
  | jal | jalr => exact jumpAndLink_inSlot h _ _
  | beq | bne | blez | bgtz | bltz | bgez => exact branchOn_inSlot h _ _
  | _ => cases hi

end

/-- Settles O18: in a delay slot the ports `jp` and `branch` stop before they look at their arguments. -/
theorem transferInDelaySlotStops : Obligations.TransferInDelaySlotStops := by
  unfold Obligations.TransferInDelaySlotStops
  intro i s hi hp
  obtain ⟨x, hx⟩ := Option.ne_none_iff_exists'.1 hp
  exact exec_transfer_inSlot hi hx

/-! ### The instruction in the delay slot -/

/-- Under the default SYSCALL_ENTRY, an instruction that completes in a delay slot takes the owed redirect. -/
theorem exec_inSlot_takes_redirect {i : Instr} {t u : State} {target : Word} (hsys : t.params.syscallEntry = .unhandled)
    (hp : t.pending = some target) (h : exec i t = .next u) : u.pc = target ∧ u.pending = none := by
  have hi : isTransfer i = false := by
    by_contra hi
    rw [exec_transfer_inSlot (by simpa using hi) hp] at h
    cases h
  have hne : i ≠ .syscall := by
    rintro rfl
    simp [exec, execSyscall, State.syscallException, hsys] at h
  obtain ⟨hnone, hpc⟩ := advanced_of_exec hi hne h
  rw [hp] at hpc
  exact ⟨hpc, hnone⟩

/-- Settles O19: the second step is not that of a finished run, since a redirect is owed, and does not halt, so its
instruction completes in the delay slot. -/
theorem delaySlotInstructionThenTarget : Obligations.DelaySlotInstructionThenTarget := by
  unfold Obligations.DelaySlotInstructionThenTarget
  intro s t u target hirq hsys hst hp _ htu hu
  have hparams : t.params = s.params := (step_keeps hst).1
  have hhook : t.interruptHook = t := State.interruptHook_of_none (by rw [hparams, hirq])
  obtain ⟨-, hc⟩ := step_eq_next htu
  cases hc with
  | finished hf => simp [State.finished, hp] at hf
  | halts f => simp at hu
  | executes i hi =>
    rw [hhook] at hi
    exact exec_inSlot_takes_redirect (by rw [hparams, hsys]) hp hi

end Sys2Proof.Machine
end

section
/-! Which results an instruction can have (48_trap.md R271, 60_exceptions.md R280, R286): none is refused, and the core's
fatal output is the divisions' alone. -/

namespace Sys2Proof.Machine

/-! ### Results without a refusal, by the stops they allow -/

/-- The result goes on, or stops with a fault that `p` allows. -/
def CompletesOr (p : Fault → Prop) : Result → Prop
  | .next _ => True
  | .fault f => p f
  | .refused _ => False

/-- The fault is not the core's fatal output. -/
def Fault.NonFatal (f : Fault) : Prop := ∀ kind level value, f ≠ .fatal kind level value

theorem Fault.nonFatal_busFault (a : Word) : (Fault.busFault a).NonFatal := nofun

theorem Fault.nonFatal_unwrittenRead (a : Word) : (Fault.unwrittenRead a).NonFatal := nofun

theorem Fault.nonFatal_branchInDelaySlot (a : Word) : (Fault.branchInDelaySlot a).NonFatal := nofun

/-- The port operation completes or stops without the fatal output. -/
def StopsNonFatally {α : Type} (x : Except Fault α) : Prop := ∀ f, x = .error f → f.NonFatal

theorem StopsNonFatally.ok {α : Type} (a : α) : StopsNonFatally (.ok a : Except Fault α) := nofun

theorem StopsNonFatally.error {α : Type} {f : Fault} (h : f.NonFatal) : StopsNonFatally (.error f : Except Fault α) :=
  fun _ e => by cases e; exact h

theorem StopsNonFatally.bind {α β : Type} {x : Except Fault α} {k : α → Except Fault β} (hx : StopsNonFatally x)
    (hk : ∀ a, StopsNonFatally (k a)) : StopsNonFatally (x >>= k) := by
  cases x with
  | error f => exact .error (hx f rfl)
  | ok a => exact hk a

theorem StopsNonFatally.map {α β : Type} {x : Except Fault α} (hx : StopsNonFatally x) (g : α → β) :
    StopsNonFatally (x.map g) := by
  cases x with
  | error f => exact .error (hx f rfl)
  | ok a => exact .ok _

theorem StopsNonFatally.ite {α : Type} {c : Prop} [Decidable c] {x y : Except Fault α} (hx : StopsNonFatally x)
    (hy : StopsNonFatally y) : StopsNonFatally (if c then x else y) := by
  split
  · exact hx
  · exact hy

/-! ### The ports -/

section
variable (s : State) (a : Word)

theorem stopsNonFatally_loadByte : StopsNonFatally (s.loadByte a) := by
  unfold State.loadByte
  split
  · exact .ok _
  · exact .error (Fault.nonFatal_unwrittenRead a)

theorem stopsNonFatally_read8 : StopsNonFatally (s.read8 a) :=
  .ite (stopsNonFatally_loadByte s a) (.error (Fault.nonFatal_busFault a))

theorem stopsNonFatally_read16 : StopsNonFatally (s.read16 a) :=
  .ite (.bind (stopsNonFatally_loadByte _ _) fun _ => .bind (stopsNonFatally_loadByte _ _) fun _ => .ok _)
    (.error (Fault.nonFatal_busFault a))

theorem stopsNonFatally_read32 : StopsNonFatally (s.read32 a) :=
  .ite (.bind (stopsNonFatally_loadByte _ _) fun _ => .bind (stopsNonFatally_loadByte _ _) fun _ =>
      .bind (stopsNonFatally_loadByte _ _) fun _ => .bind (stopsNonFatally_loadByte _ _) fun _ => .ok _)
    (.error (Fault.nonFatal_busFault a))

theorem stopsNonFatally_write8 (v : Byte) : StopsNonFatally (s.write8 a v) :=
  .ite (.ok _) (.error (Fault.nonFatal_busFault a))

theorem stopsNonFatally_write16 (v : Half) : StopsNonFatally (s.write16 a v) :=
  .ite (.ok _) (.error (Fault.nonFatal_busFault a))

theorem stopsNonFatally_write32 (v : Word) : StopsNonFatally (s.write32 a v) :=
  .ite (.ok _) (.error (Fault.nonFatal_busFault a))

theorem stopsNonFatally_jp : StopsNonFatally (s.jp a) := by
  unfold State.jp
  split
  · exact .error (Fault.nonFatal_branchInDelaySlot _)
  · exact .ok _

theorem stopsNonFatally_branch (c : Bool) : StopsNonFatally (s.branch c a) := by
  unfold State.branch
  split
  · exact .error (Fault.nonFatal_branchInDelaySlot _)
  · exact .ok _

end

/-! ### The ends of the handlers -/

theorem CompletesOr.orFault {p : Fault → Prop} (hp : ∀ f : Fault, f.NonFatal → p f) {α : Type} {x : Except Fault α}
    {k : α → Result} (hx : StopsNonFatally x) (hk : ∀ a, CompletesOr p (k a)) : CompletesOr p (orFault x k) := by
  cases x with
  | error f => exact hp f (hx f rfl)
  | ok a => exact hk a

section
variable {p : Fault → Prop} (hp : ∀ f : Fault, f.NonFatal → p f)
include hp

theorem completesOr_loadInto {s : State} {rt : Reg} {x : Except Fault Word} (hx : StopsNonFatally x) :
    CompletesOr p (loadInto s rt x) := .orFault hp hx fun _ => trivial

theorem completesOr_storeAndAdvance {x : Except Fault State} (hx : StopsNonFatally x) : CompletesOr p (storeAndAdvance x) :=
  .orFault hp hx fun _ => trivial

theorem completesOr_mergeStore (s : State) (rt : Reg) (ea : Word) (f : Word → Word → Word) :
    CompletesOr p (mergeStore s rt ea f) :=
  .orFault hp (stopsNonFatally_read32 _ _) fun _ => completesOr_storeAndAdvance hp (stopsNonFatally_write32 _ _ _)

theorem completesOr_jumpTo (s : State) (a : Word) : CompletesOr p (jumpTo s a) :=
  .orFault hp (stopsNonFatally_jp _ _) fun _ => trivial

theorem completesOr_jumpAndLink (s : State) (a : Word) (r : Reg) : CompletesOr p (jumpAndLink s a r) :=
  .orFault hp (stopsNonFatally_jp _ _) fun _ => trivial

theorem completesOr_branchOn (s : State) (c : Bool) (o : Half) : CompletesOr p (branchOn s c o) :=
  .orFault hp (stopsNonFatally_branch _ _ _) fun _ => trivial

theorem completesOr_syscallException (s : State) : CompletesOr p s.syscallException := by
  unfold State.syscallException
  split
  · exact hp _ nofun
  · trivial
  · trivial

end

/-! ### All instructions -/

/-- The stops of an instruction: any that is not the fatal output, and the fatal output of a division by zero with its own
funct (R271, D15). -/
def StopOf (i : Instr) (s : State) : Fault → Prop
  | .fatal kind level value => kind = .divideByZero ∧ level = .special ∧
      ∃ rs rt, s.getGpr rt = 0 ∧ (i = .div rs rt ∧ value = 0x1A ∨ i = .divu rs rt ∧ value = 0x1B)
  | _ => True

theorem stopOf_of_nonFatal (i : Instr) (s : State) (f : Fault) (h : f.NonFatal) : StopOf i s f := by
  cases f with
  | fatal kind level value => exact absurd rfl (h kind level value)
  | _ => trivial

/-- Every instruction completes or stops with a stop of its own. -/
theorem exec_completesOr (i : Instr) (s : State) : CompletesOr (StopOf i s) (exec i s) := by
  have hp := stopOf_of_nonFatal i s
  cases i with
  | div rs rt =>
    simp only [exec, execDiv]
    split
    · next h => exact ⟨rfl, rfl, rs, rt, h, .inl ⟨rfl, rfl⟩⟩
    · trivial
  | divu rs rt =>
    simp only [exec, execDivu]
    split
    · next h => exact ⟨rfl, rfl, rs, rt, h, .inr ⟨rfl, rfl⟩⟩
    · trivial
  | lb | lbu => exact completesOr_loadInto hp (.map (stopsNonFatally_read8 _ _) _)
  | lh | lhu => exact completesOr_loadInto hp (.map (stopsNonFatally_read16 _ _) _)
  | lw => exact completesOr_loadInto hp (stopsNonFatally_read32 _ _)
  | lwl | lwr => exact completesOr_loadInto hp (.map (stopsNonFatally_read32 _ _) _)
  | sb => exact completesOr_storeAndAdvance hp (stopsNonFatally_write8 _ _ _)
  | sh => exact completesOr_storeAndAdvance hp (stopsNonFatally_write16 _ _ _)
  | sw => exact completesOr_storeAndAdvance hp (stopsNonFatally_write32 _ _ _)
  | swl | swr => exact completesOr_mergeStore hp ..
  | j | jr => exact completesOr_jumpTo hp ..
  | jal | jalr => exact completesOr_jumpAndLink hp ..
  | beq | bne | blez | bgtz | bltz | bgez => exact completesOr_branchOn hp ..
  | syscall => exact completesOr_syscallException hp s
  | _ => trivial

/-- Settles O20: the fatal outputs among the stops of an instruction are those of the two divisions. -/
theorem onlyDivisionByZeroIsFatal : Obligations.OnlyDivisionByZeroIsFatal := by
  unfold Obligations.OnlyDivisionByZeroIsFatal
  intro i s kind level value h
  have := exec_completesOr i s
  rwa [h] at this

/-- Settles O21: no end of a handler refuses. -/
theorem noInstructionIsRefused : Obligations.NoInstructionIsRefused := by
  unfold Obligations.NoInstructionIsRefused
  intro i s q h
  have := exec_completesOr i s
  rwa [h] at this

end Sys2Proof.Machine
end

section
/-! The coprocessor registers as seen by the other instructions (60_exceptions.md R290, 70_reset_and_hazards.md R312): 
replacing them commutes with every operation that does not name them. -/

namespace Sys2Proof.Machine

/-- The state with other coprocessor contents. -/
def State.withCop (s : State) (c : Vector (Vector Word 32) 4) : State := { s with cop := c }

section
variable (s : State) (c : Vector (Vector Word 32) 4)

@[simp] theorem State.setGpr_withCop (r : Reg) (v : Word) : (s.withCop c).setGpr r v = (s.setGpr r v).withCop c := by
  unfold State.setGpr; split <;> rfl

@[simp] theorem State.advance_withCop : (s.withCop c).advance = s.advance.withCop c := by
  unfold State.advance
  cases h : s.pending <;> simp [State.withCop, h]

theorem State.jp_withCop (a : Word) : (s.withCop c).jp a = (s.jp a).map (·.withCop c) := by
  unfold State.jp
  cases h : s.pending <;> simp [State.withCop, h, Except.map]

theorem State.branch_withCop (b : Bool) (o : Word) : (s.withCop c).branch b o = (s.branch b o).map (·.withCop c) := by
  unfold State.branch
  cases h : s.pending <;> simp [State.withCop, h, Except.map]

theorem State.write8_withCop (a : Word) (v : Byte) : (s.withCop c).write8 a v = (s.write8 a v).map (·.withCop c) := by
  simp only [State.write8, apply_ite (Except.map fun t : State => t.withCop c)]; rfl

theorem State.write16_withCop (a : Word) (v : Half) : (s.withCop c).write16 a v = (s.write16 a v).map (·.withCop c) := by
  simp only [State.write16, apply_ite (Except.map fun t : State => t.withCop c)]; rfl

theorem State.write32_withCop (a v : Word) : (s.withCop c).write32 a v = (s.write32 a v).map (·.withCop c) := by
  simp only [State.write32, apply_ite (Except.map fun t : State => t.withCop c)]; rfl

/-! ### The ends of the handlers -/

theorem writeAndAdvance_withCop (d : Reg) (v : Word) :
    writeAndAdvance (s.withCop c) d v = mapNext (·.withCop c) (writeAndAdvance s d v) := by
  simp [writeAndAdvance, mapNext]

theorem writeHiLo_withCop (hi lo : Word) :
    writeHiLo (s.withCop c) hi lo = mapNext (·.withCop c) (writeHiLo s hi lo) :=
  congrArg _ (((s.setLo lo).setHi hi).advance_withCop c)

theorem loadInto_withCop (rt : Reg) (x : Except Fault Word) :
    loadInto (s.withCop c) rt x = mapNext (·.withCop c) (loadInto s rt x) := by
  cases x with
  | error f => rfl
  | ok v => exact writeAndAdvance_withCop s c rt v

theorem storeAndAdvance_withCop (x : Except Fault State) :
    storeAndAdvance (x.map (·.withCop c)) = mapNext (·.withCop c) (storeAndAdvance x) := by
  cases x with
  | error f => rfl
  | ok t => exact congrArg _ (t.advance_withCop c)

theorem mergeLoad_withCop (rt : Reg) (ea : Word) (f : Word → Word → Word) :
    mergeLoad (s.withCop c) rt ea f = mapNext (·.withCop c) (mergeLoad s rt ea f) := loadInto_withCop s c rt _

theorem mergeStore_withCop (rt : Reg) (ea : Word) (f : Word → Word → Word) :
    mergeStore (s.withCop c) rt ea f = mapNext (·.withCop c) (mergeStore s rt ea f) := by
  have hread : (s.withCop c).read32 (alignedAddress ea) = s.read32 (alignedAddress ea) := rfl
  rw [mergeStore, mergeStore, hread]
  cases s.read32 (alignedAddress ea) with
  | error f => rfl
  | ok m =>
    rw [orFault_ok, orFault_ok, State.write32_withCop]
    exact storeAndAdvance_withCop c _

theorem jumpTo_withCop (a : Word) : jumpTo (s.withCop c) a = mapNext (·.withCop c) (jumpTo s a) := by
  rw [jumpTo, jumpTo, State.jp_withCop]
  cases s.jp a <;> rfl

theorem jumpAndLink_withCop (a : Word) (r : Reg) :
    jumpAndLink (s.withCop c) a r = mapNext (·.withCop c) (jumpAndLink s a r) := by
  rw [jumpAndLink, jumpAndLink, State.jp_withCop]
  cases s.jp a with
  | error f => rfl
  | ok t => exact congrArg _ (t.setGpr_withCop c r _)

theorem branchOn_withCop (b : Bool) (o : Half) : branchOn (s.withCop c) b o = mapNext (·.withCop c) (branchOn s b o) := by
  rw [branchOn, branchOn, State.branch_withCop]
  cases s.branch b (branchOffset o) <;> rfl

/-! ### All instructions -/

theorem exec_withCop {i : Instr} (hi : touchesCop i = false) :
    exec i (s.withCop c) = mapNext (·.withCop c) (exec i s) := by
  cases i with
  | mfc | mtc | rfe | syscall => cases hi
  | zeroWord => exact congrArg _ (s.advance_withCop c)
  | mthi rs => exact congrArg _ ((s.setHi _).advance_withCop c)
  | mtlo rs => exact congrArg _ ((s.setLo _).advance_withCop c)
  | multu rs rt => exact writeHiLo_withCop s c _ _
  | div rs rt =>
    simp only [exec, execDiv, apply_ite (mapNext (·.withCop c)), ← writeHiLo_withCop]
    rfl
  | divu rs rt =>
    simp only [exec, execDivu, apply_ite (mapNext (·.withCop c)), ← writeHiLo_withCop]
    rfl
  | j | jr => exact jumpTo_withCop s c _
  | jal | jalr => exact jumpAndLink_withCop s c _ _
  | beq | bne | blez | bgtz | bltz | bgez => exact branchOn_withCop s c _ _
  | lb | lbu | lh | lhu | lw => exact loadInto_withCop s c _ _
  | lwl | lwr => exact mergeLoad_withCop s c _ _ _
  | swl | swr => exact mergeStore_withCop s c _ _ _
  | sb => exact (congrArg _ (State.write8_withCop s c _ _)).trans (storeAndAdvance_withCop c _)
  | sh => exact (congrArg _ (State.write16_withCop s c _ _)).trans (storeAndAdvance_withCop c _)
  | sw => exact (congrArg _ (State.write32_withCop s c _ _)).trans (storeAndAdvance_withCop c _)
  | _ => exact writeAndAdvance_withCop s c _ _

end

/-- Settles O22: replacing the coprocessor registers commutes with every instruction that has no port to them. -/
theorem coprocessorRegistersSteerNothingElse : Obligations.CoprocessorRegistersSteerNothingElse := by
  unfold Obligations.CoprocessorRegistersSteerNothingElse
  exact fun i s c => exec_withCop s c

end Sys2Proof.Machine
end

section
/-! Registers, the rest of the arithmetic, and the shifts (10_state.md R31; 41_alu.md R132, R140, R143; 42_shift.md R160 to
R166), their values in integers. -/

namespace Sys2Proof.Machine

/-- Settles O23: the register laws R31 of the state. -/
theorem registerZeroAndReadAfterWrite : Obligations.RegisterZeroAndReadAfterWrite := by
  unfold Obligations.RegisterZeroAndReadAfterWrite
  exact fun s r v => ⟨s.getGpr_zero, s.setGpr_zero v, fun hr => by simp [hr], fun r' hne => s.getGpr_setGpr_ne v hne⟩

/-! ### The values written -/

/-- The machine's difference is the difference of integers mod 2^32 (R132). -/
theorem sub_eq_ofInt_toNat (x y : Word) : x - y = BitVec.ofInt 32 (x.toNat - y.toNat) := by
  rw [Int.sub_eq_add_neg, BitVec.ofInt_add, BitVec.ofInt_neg, ← BitVec.sub_eq_add_neg, BitVec.ofInt_natCast,
    BitVec.ofInt_natCast, BitVec.ofNat_toNat, BitVec.ofNat_toNat, BitVec.setWidth_eq, BitVec.setWidth_eq]

theorem toNat_zext16 (imm : Half) : (zext16 imm).toNat = imm.toNat :=
  BitVec.toNat_setWidth_of_le (by decide)

/-- A left shift multiplies (R160). -/
theorem shiftLeft_eq_ofNat (x : Word) (n : Nat) : x <<< n = BitVec.ofNat 32 (x.toNat * 2 ^ n) := by
  apply BitVec.eq_of_toNat_eq
  rw [BitVec.toNat_shiftLeft, Nat.shiftLeft_eq, BitVec.toNat_ofNat]

/-- A right shift that enters zeros divides the unsigned value (R161). -/
theorem shiftRight_eq_ofNat (x : Word) (n : Nat) : x >>> n = BitVec.ofNat 32 (x.toNat / 2 ^ n) := by
  rw [← Nat.shiftRight_eq_div_pow, ← BitVec.toNat_ushiftRight, BitVec.ofNat_toNat, BitVec.setWidth_eq]

/-- A right shift that enters the sign divides the signed value, rounding down (R162). -/
theorem sshiftRight_eq_ofInt (x : Word) (n : Nat) : x.sshiftRight n = BitVec.ofInt 32 (x.toInt / 2 ^ n) := by
  have hpow : x.toInt / 2 ^ n = x.toInt >>> n := by rw [Int.shiftRight_eq_div_pow]; norm_cast
  rw [hpow, ← BitVec.toInt_sshiftRight, BitVec.ofInt_toInt]

/-- A variable amount is the register mod 32 (R163, R166). -/
theorem shiftAmount_eq_mod (v : Word) : shiftAmount v = v.toNat % 32 :=
  (BitVec.toNat_and v 0x1F#32).trans (Nat.and_two_pow_sub_one_eq_mod v.toNat 5)

/-! ### The statements -/

/-- Settles O29: the handler writes the machine's difference in every state. -/
theorem subuWritesTheDifference : Obligations.SubuWritesTheDifference := by
  unfold Obligations.SubuWritesTheDifference
  exact ⟨encodedSpecial_of_row fun _ h => by simp [decodeSpecial, h],
    fun rd rs rt s => exec_writesGpr rfl (sub_eq_ofInt_toNat _ _)⟩

/-- Settles O33: the handler of `addi` is that of `addiu`. -/
theorem addiNeverTraps : Obligations.AddiNeverTraps := by
  unfold Obligations.AddiNeverTraps
  exact ⟨encodedPrimary_of_row (by decide) fun _ h => by simp [decodePrimary, h],
    fun rt rs imm s => exec_writesGpr rfl (add_sext16_eq_ofInt _ imm)⟩

/-- Settles O34: the zero-extended immediate has the immediate's unsigned value. -/
theorem sltiuZeroExtends : Obligations.SltiuZeroExtends := by
  unfold Obligations.SltiuZeroExtends
  exact ⟨encodedPrimary_of_row (by decide) fun _ h => by simp [decodePrimary, h],
    fun rt rs imm s => exec_writesGpr rfl (by rw [lessUnsigned, toNat_zext16, boolWord_decide])⟩

/-- Settles O36: a shift by any amount is the product with, or the quotient by, the power of two. -/
theorem fixedShiftsScaleByPowersOfTwo : Obligations.FixedShiftsScaleByPowersOfTwo := by
  unfold Obligations.FixedShiftsScaleByPowersOfTwo
  refine ⟨encodedSpecial_of_row fun _ h => by simp [decodeSpecial, h],
    encodedSpecial_of_row fun _ h => by simp [decodeSpecial, h],
    encodedSpecial_of_row fun _ h => by simp [decodeSpecial, h],
    fun rd rt shamt s => ⟨?_, ?_, ?_⟩⟩
  · exact exec_writesGpr rfl (shiftLeft_eq_ofNat _ _)
  · exact exec_writesGpr rfl (shiftRight_eq_ofNat _ _)
  · exact exec_writesGpr rfl (sshiftRight_eq_ofInt _ _)

/-- Settles O37: the same values at the amount `shiftAmount` takes, which is the register mod 32. -/
theorem variableShiftsTakeTheAmountModulo32 : Obligations.VariableShiftsTakeTheAmountModulo32 := by
  unfold Obligations.VariableShiftsTakeTheAmountModulo32
  refine ⟨encodedSpecial_of_row fun _ h => by simp [decodeSpecial, h],
    encodedSpecial_of_row fun _ h => by simp [decodeSpecial, h],
    encodedSpecial_of_row fun _ h => by simp [decodeSpecial, h],
    fun rd rt rs s => ?_⟩
  simp only [← shiftAmount_eq_mod]
  refine ⟨?_, ?_, ?_⟩
  · exact exec_writesGpr rfl (shiftLeft_eq_ofNat _ _)
  · exact exec_writesGpr rfl (shiftRight_eq_ofNat _ _)
  · exact exec_writesGpr rfl (sshiftRight_eq_ofInt _ _)

end Sys2Proof.Machine
end

section
/-! Division and the writes of HI and LO (43_muldiv.md R171, R172, R175, R176, R179). -/

namespace Sys2Proof.Machine

/-! ### Truncating division of integers -/

theorem abs_tmod_lt (n : Int) {d : Int} (hd : d ≠ 0) : |n.tmod d| < |d| := by
  have := Nat.mod_lt n.natAbs (Int.natAbs_pos.2 hd)
  rw [Int.abs_eq_natAbs, Int.abs_eq_natAbs, Int.natAbs_tmod]
  exact_mod_cast this

/-- The remainder of the quotient rounded toward zero has the dividend's sign (R171). -/
theorem tmod_mul_self_nonneg (n d : Int) : 0 ≤ n.tmod d * n := by
  obtain hn | hn := le_total 0 n
  · exact mul_nonneg (Int.tmod_nonneg d hn) hn
  · have hneg : 0 ≤ -n := by omega
    have := mul_nonneg (Int.tmod_nonneg d hneg) hneg
    rwa [Int.neg_tmod, neg_mul_neg] at this

/-! ### The handlers with a nonzero divisor -/

section
variable {s : State} {rs rt : Reg} (h : s.getGpr rt ≠ 0)
include h

theorem exec_div_of_ne_zero :
    exec (.div rs rt) s = writeHiLo s (BitVec.ofInt 32 ((s.getGpr rs).toInt.tmod (s.getGpr rt).toInt))
      (BitVec.ofInt 32 ((s.getGpr rs).toInt.tdiv (s.getGpr rt).toInt)) := by
  simp only [exec, execDiv]
  rw [if_neg h, Int.tmod_def, Int.mul_comm]

theorem exec_divu_of_ne_zero :
    exec (.divu rs rt) s = writeHiLo s (BitVec.ofNat 32 ((s.getGpr rs).toNat % (s.getGpr rt).toNat))
      (BitVec.ofNat 32 ((s.getGpr rs).toNat / (s.getGpr rt).toNat)) := by
  simp only [exec, execDivu]
  rw [if_neg h, Nat.mod_eq_sub_div_mul]

end

/-! ### The statements -/

/-- Settles O39: the quotient rounded toward zero and its remainder. -/
theorem divTruncatesTowardZero : Obligations.DivTruncatesTowardZero := by
  unfold Obligations.DivTruncatesTowardZero
  refine ⟨encodedSpecial_of_row fun _ h => by simp [decodeSpecial, h], fun rs rt s hd => ?_⟩
  obtain ⟨t, ht, hw⟩ := exec_writesHiLo (exec_div_of_ne_zero (rs := rs) hd)
  have hdInt : (s.getGpr rt).toInt ≠ 0 := fun h => hd (BitVec.eq_of_toInt_eq (by simpa using h))
  refine ⟨t, _, _, ht, hw, ?_, abs_tmod_lt _ hdInt, tmod_mul_self_nonneg _ _⟩
  rw [Int.mul_comm, Int.mul_tdiv_add_tmod]

/-- Settles O40: the unsigned quotient and remainder are words. -/
theorem divuGivesQuotientAndRemainder : Obligations.DivuGivesQuotientAndRemainder := by
  unfold Obligations.DivuGivesQuotientAndRemainder
  refine ⟨encodedSpecial_of_row fun _ h => by simp [decodeSpecial, h], fun rs rt s hd => ?_⟩
  obtain ⟨t, ht, hw⟩ := exec_writesHiLo (exec_divu_of_ne_zero (rs := rs) hd)
  have hdNat : 0 < (s.getGpr rt).toNat := Nat.pos_of_ne_zero fun h => hd (BitVec.eq_of_toNat_eq (by simpa using h))
  have hrem := Nat.mod_lt (s.getGpr rs).toNat hdNat
  have hquot : (s.getGpr rs).toNat / (s.getGpr rt).toNat < 2 ^ 32 := (Nat.div_le_self _ _).trans_lt (s.getGpr rs).isLt
  refine ⟨t, _, _, ht, hw, ?_⟩
  rw [BitVec.toNat_ofNat, BitVec.toNat_ofNat, Nat.mod_eq_of_lt hquot,
    Nat.mod_eq_of_lt (hrem.trans (s.getGpr rt).isLt)]
  exact ⟨(Nat.div_add_mod' _ _).symm, hrem⟩

/-- Settles O41: the test of the divisor comes before the division. -/
theorem divisionByZeroStops : Obligations.DivisionByZeroStops := by
  unfold Obligations.DivisionByZeroStops
  exact fun rs rt s h => ⟨if_pos h, if_pos h⟩

/-- Settles O43: each handler is a write of the accumulator pair that repeats the other accumulator's value. -/
theorem mthiAndMtloWriteOneAccumulator : Obligations.MthiAndMtloWriteOneAccumulator := by
  unfold Obligations.MthiAndMtloWriteOneAccumulator
  refine ⟨encodedSpecial_of_row fun _ h => by simp [decodeSpecial, h],
    encodedSpecial_of_row fun _ h => by simp [decodeSpecial, h],
    fun rs s => ⟨?_, ?_⟩⟩
  · exact exec_writesHiLo rfl
  · exact exec_writesHiLo rfl

end Sys2Proof.Machine
end

section
/-! Accesses and the bytes they reach (20_memory.md R50 to R55): parts of an access, reads of what was just written, and the
fetch. -/

namespace Sys2Proof.Machine

/-! ### Byte addresses -/

theorem add_ofNat_add (a : Word) (k i : Nat) :
    a + BitVec.ofNat 32 k + BitVec.ofNat 32 i = a + BitVec.ofNat 32 (k + i) := by
  rw [BitVec.add_assoc, BitVec.ofNat_add]

/-- The bytes of an access of at most 2^32 bytes lie at different addresses. -/
theorem add_ofNat_toNat_inj (a : Word) {i j : Nat} (hi : i < 2 ^ 32) (hj : j < 2 ^ 32) :
    (a + BitVec.ofNat 32 i).toNat = (a + BitVec.ofNat 32 j).toNat ↔ i = j := by
  constructor
  · intro h
    have h := congrArg BitVec.toNat ((BitVec.add_right_inj a).1 (BitVec.eq_of_toNat_eq h))
    rwa [BitVec.toNat_ofNat, BitVec.toNat_ofNat, Nat.mod_eq_of_lt hi, Nat.mod_eq_of_lt hj] at h
  · rintro rfl; rfl

/-! ### Parts of an access -/

theorem State.admits_iff {s : State} {a : Word} {n : Nat} :
    s.admits a n = true ↔ ∀ i, i < n → admittedByte s.params.memMap (a + BitVec.ofNat 32 i) = true := by
  simp [State.admits, admittedAccess]

theorem State.admits_part {s : State} {a : Word} {n k l : Nat} (h : s.admits a n = true) (hkl : k + l ≤ n) :
    s.admits (a + BitVec.ofNat 32 k) l = true := by
  rw [State.admits_iff] at h ⊢
  intro i hi
  rw [add_ofNat_add]
  exact h _ (by omega)

theorem HoldsBytes.part {s : State} {a : Word} {n : Nat} {m : Nat → Byte} (h : HoldsBytes s a n m) {k l : Nat}
    (hkl : k + l ≤ n) : HoldsBytes s (a + BitVec.ofNat 32 k) l (fun i => m (k + i)) := by
  obtain ⟨hadm, hread⟩ := h
  refine ⟨State.admits_part hadm hkl, fun i hi => ?_⟩
  rw [add_ofNat_add]
  exact hread _ (by omega)

/-! ### Bytes just stored -/

section
variable {s t : State} {a : Word} {n : Nat} {v : Nat → Byte}

theorem StoresBytes.admits (h : StoresBytes s t a n v) (a' : Word) (k : Nat) : t.admits a' k = s.admits a' k := by
  obtain ⟨-, -, -, -, -, -, hparams⟩ := h
  exact State.admits_congr hparams a' k

theorem StoresBytes.holdsBytes (h : StoresBytes s t a n v) (hadm : s.admits a n = true) : HoldsBytes t a n v :=
  ⟨(h.admits a n).trans hadm, h.1⟩

theorem StoresBytes.congr {v' : Nat → Byte} (h : StoresBytes s t a n v) (hv : ∀ i, i < n → v i = v' i) :
    StoresBytes s t a n v' := by
  obtain ⟨hin, hrest⟩ := h
  exact ⟨fun i hi => hv i hi ▸ hin i hi, hrest⟩

theorem StoresBytes.advance (h : StoresBytes s t a n v) : StoresBytes s t.advance a n v := by
  obtain ⟨hin, hout, hgpr, hhilo, hcop, hsetup⟩ := h
  exact ⟨by simpa using hin, by simpa using hout, fun r => by simpa using hgpr r, by simpa [SameHiLo] using hhilo,
    fun z r => by simpa using hcop z r, by simpa [SameSetup] using hsetup⟩

end

theorem holdsBytes_storeBytes_word {s : State} {a : Word} (h : s.admits a 4 = true) (v : Word) :
    HoldsBytes (s.storeBytes a (bytesOfWord v)) a 4 (fun i => BitVec.ofNat 8 (v.toNat / 2 ^ (8 * i))) :=
  (s.storesBytes_word a v).holdsBytes h

/-- The bytes of a word, put together again (R50). -/
theorem wordOfBytes_bytes (v : Word) :
    wordOfBytes (BitVec.ofNat 8 (v.toNat / 2 ^ (8 * 0))) (BitVec.ofNat 8 (v.toNat / 2 ^ (8 * 1)))
      (BitVec.ofNat 8 (v.toNat / 2 ^ (8 * 2))) (BitVec.ofNat 8 (v.toNat / 2 ^ (8 * 3))) = v := by
  apply BitVec.eq_of_toNat_eq
  have := v.isLt
  simp only [wordOfBytes_eq_ofNat, BitVec.toNat_ofNat]
  omega

/-- Two neighbouring bytes of a word, put together, are its half at that place (R52). -/
theorem halfOfBytes_bytes (v : Word) (j : Nat) :
    halfOfBytes (BitVec.ofNat 8 (v.toNat / 2 ^ (8 * (2 * j)))) (BitVec.ofNat 8 (v.toNat / 2 ^ (8 * (2 * j + 1)))) =
      BitVec.ofNat 16 (v.toNat / 2 ^ (16 * j)) := by
  have hlow : 8 * (2 * j) = 16 * j := by omega
  have hhigh : v.toNat / 2 ^ (8 * (2 * j + 1)) = v.toNat / 2 ^ (16 * j) / 2 ^ 8 := by
    rw [Nat.div_div_eq_div_mul, ← Nat.pow_add, show 8 * (2 * j + 1) = 16 * j + 8 by omega]
  rw [hlow, hhigh]
  apply BitVec.eq_of_toNat_eq
  simp only [halfOfBytes_eq_ofNat, BitVec.toNat_ofNat]
  omega

/-- Settles O25: the word's bytes are held after the write, and each read puts some of them together. -/
theorem mixedWidthReadSeesTheSameBytes : Obligations.MixedWidthReadSeesTheSameBytes := by
  unfold Obligations.MixedWidthReadSeesTheSameBytes
  intro s t a v hadm hwrite
  obtain ⟨-, rfl⟩ := State.write32_ok hwrite
  have hbytes := holdsBytes_storeBytes_word hadm v
  refine ⟨?_, fun i hi => ?_, fun j hj => ?_⟩
  · rw [State.read32_eq hbytes, wordOfBytes_bytes]
  · exact State.read8_eq (hbytes.part (k := i) (l := 1) (by omega))
  · exact (State.read16_eq (hbytes.part (k := 2 * j) (l := 2) (by omega))).trans
      (congrArg _ (halfOfBytes_bytes v j))

/-! ### The fetch (R32, R51, R55) -/

theorem and_three_eq_zero_iff (x : Word) : x &&& 3#32 = 0#32 ↔ x.toNat % 4 = 0 := by
  rw [← BitVec.toNat_inj, BitVec.toNat_and]
  exact iff_of_eq (congrArg (· = 0) (Nat.and_two_pow_sub_one_eq_mod x.toNat 2))

theorem State.fetch_of_aligned {s : State} (h : s.pc.toNat % 4 = 0) : s.fetch = s.read32 s.pc :=
  if_pos ((and_three_eq_zero_iff _).2 h)

theorem State.fetch_of_misaligned {s : State} (h : s.pc.toNat % 4 ≠ 0) : s.fetch = .error (.misalignedFetch s.pc) :=
  if_neg fun h0 => h ((and_three_eq_zero_iff _).1 h0)

theorem State.read32_of_not_admits {s : State} {a : Word} (h : s.admits a 4 = false) :
    s.read32 a = .error (.busFault a) := by simp [State.read32, h]

/-- Settles O7: the test of the two low bits, then the word port at `pc`. -/
theorem fetchReadsTheWordAtPc : Obligations.FetchReadsTheWordAtPc := by
  unfold Obligations.FetchReadsTheWordAtPc
  refine fun s => ⟨State.fetch_of_misaligned, fun hpc hadm => ?_, fun m hpc hbytes => ?_⟩
  · rw [State.fetch_of_aligned hpc, State.read32_of_not_admits hadm]
  · rw [State.fetch_of_aligned hpc, State.read32_eq hbytes, wordOfBytes_eq_ofNat]

/-- Settles O16: the placed bytes are held at `pc`, and the fetch puts them together. -/
theorem placedWordIsFetched : Obligations.PlacedWordIsFetched := by
  unfold Obligations.PlacedWordIsFetched
  intro s w hpc hadm
  have hword : tableWord 32 w = BitVec.ofNat 32 w := BitVec.eq_of_toNat_eq (by simp [tableWord])
  have hbytes := holdsBytes_storeBytes_word hadm (tableWord 32 w)
  calc (s.withFetchWord 32 w).fetch
      = (s.withFetchWord 32 w).read32 s.pc := State.fetch_of_aligned (s := s.withFetchWord 32 w) hpc
    _ = .ok (tableWord 32 w) := (State.read32_eq hbytes).trans (congrArg _ (wordOfBytes_bytes _))
    _ = .ok (BitVec.ofNat 32 w) := by rw [hword]

end Sys2Proof.Machine
end

section
/-! The stops of the memory ports and of the instructions that use them: outside MEM_MAP (10_state.md R35) and at a byte
nothing has written (log 3). -/

namespace Sys2Proof.Machine

/-! ### A port that stops, stops the instruction (R199, R286) -/

section
variable {s : State} {base : Reg} {offset : Half} {f : Fault} (rt : Reg)

theorem exec_byteLoads_of_error (h : s.read8 (effectiveAddress s base offset) = .error f) :
    exec (.lb rt base offset) s = .fault f ∧ exec (.lbu rt base offset) s = .fault f := by
  rw [exec, exec, execLb, execLbu, h]; exact ⟨rfl, rfl⟩

theorem exec_halfLoads_of_error (h : s.read16 (effectiveAddress s base offset) = .error f) :
    exec (.lh rt base offset) s = .fault f ∧ exec (.lhu rt base offset) s = .fault f := by
  rw [exec, exec, execLh, execLhu, h]; exact ⟨rfl, rfl⟩

theorem exec_lw_of_error (h : s.read32 (effectiveAddress s base offset) = .error f) :
    exec (.lw rt base offset) s = .fault f := by
  rw [exec, execLw, h]; rfl

theorem mergeLoad_of_error {ea : Word} (h : s.read32 (alignedAddress ea) = .error f) (g : Word → Word → Word) :
    mergeLoad s rt ea g = .fault f := by
  rw [mergeLoad, h]; rfl

theorem mergeStore_of_error {ea : Word} (h : s.read32 (alignedAddress ea) = .error f) (g : Word → Word → Word) :
    mergeStore s rt ea g = .fault f := by
  rw [mergeStore, h]; rfl

/-- All four partial-word instructions read the aligned word first (R211). -/
theorem exec_partial_of_error (h : s.read32 (alignedAddress (effectiveAddress s base offset)) = .error f) :
    exec (.lwl rt base offset) s = .fault f ∧ exec (.lwr rt base offset) s = .fault f ∧
    exec (.swl rt base offset) s = .fault f ∧ exec (.swr rt base offset) s = .fault f :=
  ⟨mergeLoad_of_error rt h _, mergeLoad_of_error rt h _, mergeStore_of_error rt h _, mergeStore_of_error rt h _⟩

theorem storeAndAdvance_of_error {x : Except Fault State} (h : x = .error f) : storeAndAdvance x = .fault f := by
  rw [h]; rfl

end

/-! ### Outside MEM_MAP (R35) -/

section
variable {s : State} {a : Word}

theorem State.not_admits_of_byte {n i : Nat} (hi : i < n)
    (h : admittedByte s.params.memMap (a + BitVec.ofNat 32 i) = false) : s.admits a n = false := by
  rw [← Bool.not_eq_true, State.admits_iff]
  exact fun hall => absurd (hall i hi) (by simp [h])

theorem State.read8_of_not_admits (h : s.admits a 1 = false) : s.read8 a = .error (.busFault a) := by
  simp [State.read8, h]

theorem State.read16_of_not_admits (h : s.admits a 2 = false) : s.read16 a = .error (.busFault a) := by
  simp [State.read16, h]

theorem State.write8_of_not_admits (h : s.admits a 1 = false) (v : Byte) : s.write8 a v = .error (.busFault a) := by
  simp [State.write8, h]

theorem State.write16_of_not_admits (h : s.admits a 2 = false) (v : Half) : s.write16 a v = .error (.busFault a) := by
  simp [State.write16, h]

theorem State.write32_of_not_admits (h : s.admits a 4 = false) (v : Word) : s.write32 a v = .error (.busFault a) := by
  simp [State.write32, h]

end

/-- Settles O26: the whole access is held against MEM_MAP before anything else, and the port's stop is the instruction's. -/
theorem accessOutsideTheMapIsBusFault : Obligations.AccessOutsideTheMapIsBusFault := by
  unfold Obligations.AccessOutsideTheMapIsBusFault
  constructor
  · exact fun s a => ⟨fun n ⟨i, hi, h⟩ => State.not_admits_of_byte hi h,
      fun h => ⟨State.read8_of_not_admits h, State.write8_of_not_admits h⟩,
      fun h => ⟨State.read16_of_not_admits h, State.write16_of_not_admits h⟩,
      fun h => ⟨State.read32_of_not_admits h, State.write32_of_not_admits h⟩⟩
  · rintro s rt base offset _ _ rfl rfl
    refine ⟨fun h => ?_, fun h => ?_, fun h => ?_, fun h => exec_partial_of_error rt (State.read32_of_not_admits h)⟩
    · obtain ⟨hlb, hlbu⟩ := exec_byteLoads_of_error rt (State.read8_of_not_admits h)
      exact ⟨hlb, hlbu, storeAndAdvance_of_error (State.write8_of_not_admits h _)⟩
    · obtain ⟨hlh, hlhu⟩ := exec_halfLoads_of_error rt (State.read16_of_not_admits h)
      exact ⟨hlh, hlhu, storeAndAdvance_of_error (State.write16_of_not_admits h _)⟩
    · exact ⟨exec_lw_of_error rt (State.read32_of_not_admits h),
        storeAndAdvance_of_error (State.write32_of_not_admits h _)⟩

/-! ### Bytes nothing has written (log 3) -/

section
variable {s : State} {a : Word}

theorem State.loadByte_of_unwritten (h : s.mem.read a.toNat = none) : s.loadByte a = .error (.unwrittenRead a) := by
  simp [State.loadByte, h]

/-- Among the bytes of an access there is a first unwritten one; the bytes before it can be loaded. -/
theorem SomeUnwritten.first {n : Nat} (h : SomeUnwritten s a n) :
    ∃ i, i < n ∧ s.mem.read (a + BitVec.ofNat 32 i).toNat = none ∧
      ∃ m : Nat → Byte, ∀ j, j < i → s.loadByte (a + BitVec.ofNat 32 j) = .ok (m j) := by
  classical
  obtain ⟨hlt, hnone⟩ := Nat.find_spec h
  refine ⟨Nat.find h, hlt, hnone, fun j => (s.mem.read (a + BitVec.ofNat 32 j).toNat).getD 0, fun j hj => ?_⟩
  have hwritten : s.mem.read (a + BitVec.ofNat 32 j).toNat ≠ none := fun hnone' =>
    Nat.find_min h hj ⟨hj.trans hlt, hnone'⟩
  obtain ⟨b, hb⟩ := Option.ne_none_iff_exists'.1 hwritten
  exact State.loadByte_of_read (by simp only [hb, Option.getD_some])

theorem State.read8_of_unwritten (hadm : s.admits a 1 = true) (h : s.mem.read a.toNat = none) :
    s.read8 a = .error (.unwrittenRead a) := by
  rw [State.read8, if_pos hadm, State.loadByte_of_unwritten h]

/-- The halfword port stops at the first unwritten byte of its two. -/
theorem State.read16_of_someUnwritten (hadm : s.admits a 2 = true) (h : SomeUnwritten s a 2) :
    ∃ i, i < 2 ∧ s.mem.read (a + BitVec.ofNat 32 i).toNat = none ∧
      s.read16 a = .error (.unwrittenRead (a + BitVec.ofNat 32 i)) := by
  obtain ⟨i, hi, hnone, m, hm⟩ := h.first
  refine ⟨i, hi, hnone, ?_⟩
  have herr := State.loadByte_of_unwritten hnone
  have h0 : 0 < i → s.loadByte a = .ok (m 0) := by simpa using hm 0
  rw [State.read16, if_pos hadm]
  match i, hi with
  | 0, _ => rw [BitVec.add_zero] at herr ⊢; rw [herr]; rfl
  | 1, _ => rw [h0 (by omega), herr]; rfl

/-- The word port stops at the first unwritten byte of its four. -/
theorem State.read32_of_someUnwritten (hadm : s.admits a 4 = true) (h : SomeUnwritten s a 4) :
    ∃ i, i < 4 ∧ s.mem.read (a + BitVec.ofNat 32 i).toNat = none ∧
      s.read32 a = .error (.unwrittenRead (a + BitVec.ofNat 32 i)) := by
  obtain ⟨i, hi, hnone, m, hm⟩ := h.first
  refine ⟨i, hi, hnone, ?_⟩
  have herr := State.loadByte_of_unwritten hnone
  have h0 : 0 < i → s.loadByte a = .ok (m 0) := by simpa using hm 0
  rw [State.read32, if_pos hadm]
  match i, hi with
  | 0, _ => rw [BitVec.add_zero] at herr ⊢; rw [herr]; rfl
  | 1, _ => rw [h0 (by omega), herr]; rfl
  | 2, _ => rw [h0 (by omega), hm 1 (by omega), herr]; rfl
  | 3, _ => rw [h0 (by omega), hm 1 (by omega), hm 2 (by omega), herr]; rfl

theorem State.read8_of_someUnwritten (hadm : s.admits a 1 = true) (h : SomeUnwritten s a 1) :
    ∃ i, i < 1 ∧ s.mem.read (a + BitVec.ofNat 32 i).toNat = none ∧
      s.read8 a = .error (.unwrittenRead (a + BitVec.ofNat 32 i)) := by
  obtain ⟨i, hi, hnone⟩ := h
  obtain rfl : i = 0 := by omega
  refine ⟨0, hi, hnone, ?_⟩
  rw [BitVec.add_zero] at hnone ⊢
  exact State.read8_of_unwritten hadm hnone

end

/-- Settles O27: each port stops at the first unwritten byte, and its stop is the instruction's. -/
theorem readOfUnwrittenByteStops : Obligations.ReadOfUnwrittenByteStops := by
  unfold Obligations.ReadOfUnwrittenByteStops
  constructor
  · exact fun s a => ⟨State.read8_of_unwritten, State.read16_of_someUnwritten, State.read32_of_someUnwritten⟩
  · rintro s rt base offset _ _ rfl rfl
    refine ⟨fun hadm h => ?_, fun hadm h => ?_, fun hadm h => ?_, fun hadm h => ?_⟩
    · obtain ⟨i, hi, hnone, hread⟩ := State.read8_of_someUnwritten hadm h
      obtain ⟨hlb, hlbu⟩ := exec_byteLoads_of_error rt hread
      exact ⟨⟨i, hi, hnone, hlb⟩, ⟨i, hi, hnone, hlbu⟩⟩
    · obtain ⟨i, hi, hnone, hread⟩ := State.read16_of_someUnwritten hadm h
      obtain ⟨hlh, hlhu⟩ := exec_halfLoads_of_error rt hread
      exact ⟨⟨i, hi, hnone, hlh⟩, ⟨i, hi, hnone, hlhu⟩⟩
    · obtain ⟨i, hi, hnone, hread⟩ := State.read32_of_someUnwritten hadm h
      exact ⟨i, hi, hnone, exec_lw_of_error rt hread⟩
    · obtain ⟨i, hi, hnone, hread⟩ := State.read32_of_someUnwritten hadm h
      obtain ⟨hlwl, hlwr, hswl, hswr⟩ := exec_partial_of_error rt hread
      exact ⟨⟨i, hi, hnone, hlwl⟩, ⟨i, hi, hnone, hlwr⟩, ⟨i, hi, hnone, hswl⟩, ⟨i, hi, hnone, hswr⟩⟩

end Sys2Proof.Machine
end

section
/-! The aligned-width loads and stores (44_loadstore.md R190 to R198): the effective address, the loaded values in integers,
and the bytes stored. -/

namespace Sys2Proof.Machine

/-! ### The effective address (R190, R211) -/

theorem effectiveAddress_eq_ofInt (s : State) (base : Reg) (offset : Half) :
    effectiveAddress s base offset = BitVec.ofInt 32 ((s.getGpr base).toNat + offset.toInt) := by
  rw [effectiveAddress, BitVec.ofInt_add, BitVec.ofInt_natCast, BitVec.ofNat_toNat, BitVec.setWidth_eq, ← toInt_sext16,
    BitVec.ofInt_toInt]

/-- A mask of the high bits rounds down to a multiple of a power of two. -/
theorem toNat_and_highMask (x : Word) (n : Nat) :
    (x &&& BitVec.allOnes 32 <<< n).toNat = x.toNat / 2 ^ n * 2 ^ n := by
  have hle : x.toNat / 2 ^ n * 2 ^ n ≤ x.toNat := Nat.div_mul_le_self _ _
  rw [← BitVec.shiftLeft_ushiftRight, BitVec.toNat_shiftLeft, BitVec.toNat_ushiftRight, Nat.shiftRight_eq_div_pow,
    Nat.shiftLeft_eq, Nat.mod_eq_of_lt (hle.trans_lt x.isLt)]

theorem toNat_alignedAddress (ea : Word) : (alignedAddress ea).toNat = ea.toNat / 4 * 4 := toNat_and_highMask ea 2

theorem byteOffset_val (ea : Word) : (byteOffset ea).val = ea.toNat % 4 := by
  simp [byteOffset, BitVec.extractLsb'_toNat]

/-- Settles O44: a sum mod 2^32, and the two parts of an address by its low two bits. -/
theorem effectiveAddressWraps : Obligations.EffectiveAddressWraps := by
  unfold Obligations.EffectiveAddressWraps
  exact fun s base offset => ⟨effectiveAddress_eq_ofInt s base offset, toNat_alignedAddress _, byteOffset_val _⟩

/-! ### The loaded values -/

theorem sext8_eq_ofInt (b : Byte) : sext8 b = BitVec.ofInt 32 (if b.toNat < 128 then b.toNat else b.toNat - 256) := by
  rw [sext8, BitVec.signExtend, BitVec.toInt_eq_toNat_cond]
  congr 1
  split_ifs <;> omega

theorem zext8_eq_ofNat (b : Byte) : zext8 b = BitVec.ofNat 32 b.toNat := (BitVec.ofNat_toNat 32 b).symm

theorem zext16_eq_ofNat (h : Half) : zext16 h = BitVec.ofNat 32 h.toNat := (BitVec.ofNat_toNat 32 h).symm

theorem toNat_halfOfBytes (b0 b1 : Byte) : (halfOfBytes b0 b1).toNat = b0.toNat + 2 ^ 8 * b1.toNat :=
  toNat_append_eq_add b1 b0

theorem sext16_halfOfBytes (b0 b1 : Byte) :
    sext16 (halfOfBytes b0 b1) = BitVec.ofInt 32
      (if b1.toNat < 128 then b0.toNat + 2 ^ 8 * b1.toNat else b0.toNat + 2 ^ 8 * b1.toNat - 2 ^ 16) := by
  have := b0.isLt
  rw [sext16, BitVec.signExtend, BitVec.toInt_eq_toNat_cond, toNat_halfOfBytes]
  congr 1
  split_ifs <;> omega

section
variable {s : State} {rt base : Reg} {offset : Half} {m : Nat → Byte}

theorem exec_byteLoads (h : HoldsBytes s (effectiveAddress s base offset) 1 m) :
    exec (.lb rt base offset) s = writeAndAdvance s rt (sext8 (m 0)) ∧
    exec (.lbu rt base offset) s = writeAndAdvance s rt (zext8 (m 0)) := by
  rw [exec, exec, execLb, execLbu, State.read8_eq h]; exact ⟨rfl, rfl⟩

theorem exec_halfLoads (h : HoldsBytes s (effectiveAddress s base offset) 2 m) :
    exec (.lh rt base offset) s = writeAndAdvance s rt (sext16 (halfOfBytes (m 0) (m 1))) ∧
    exec (.lhu rt base offset) s = writeAndAdvance s rt (zext16 (halfOfBytes (m 0) (m 1))) := by
  rw [exec, exec, execLh, execLhu, State.read16_eq h]; exact ⟨rfl, rfl⟩

theorem exec_lw (h : HoldsBytes s (effectiveAddress s base offset) 4 m) :
    exec (.lw rt base offset) s = writeAndAdvance s rt (wordOfBytes (m 0) (m 1) (m 2) (m 3)) := by
  rw [exec, execLw, State.read32_eq h]; rfl

end

/-- Settles O45: the sign of a byte is its top bit, 128. -/
theorem loadByteExtends : Obligations.LoadByteExtends := by
  unfold Obligations.LoadByteExtends
  refine ⟨encodedPrimary_of_row (by decide) fun _ h => by simp [decodePrimary, h],
    encodedPrimary_of_row (by decide) fun _ h => by simp [decodePrimary, h],
    fun rt base offset s m h => ?_⟩
  obtain ⟨hlb, hlbu⟩ := exec_byteLoads (rt := rt) h
  exact ⟨exec_writesGpr hlb (sext8_eq_ofInt _), exec_writesGpr hlbu (zext8_eq_ofNat _)⟩

/-- Settles O46: the ports assemble the value, and the sign of a halfword is that of its upper byte. -/
theorem loadHalfAndWordAreLittleEndian : Obligations.LoadHalfAndWordAreLittleEndian := by
  unfold Obligations.LoadHalfAndWordAreLittleEndian
  refine ⟨encodedPrimary_of_row (by decide) fun _ h => by simp [decodePrimary, h],
    encodedPrimary_of_row (by decide) fun _ h => by simp [decodePrimary, h],
    encodedPrimary_of_row (by decide) fun _ h => by simp [decodePrimary, h],
    fun rt base offset s m => ⟨fun h => ?_, fun h => exec_writesGpr (exec_lw h) (wordOfBytes_eq_ofNat ..)⟩⟩
  obtain ⟨hlh, hlhu⟩ := exec_halfLoads (rt := rt) h
  exact ⟨exec_writesGpr hlh (sext16_halfOfBytes _ _),
    exec_writesGpr hlhu (by rw [zext16_eq_ofNat, toNat_halfOfBytes])⟩

/-! ### The stores -/

/-- A store that the port admits completes, with the port's bytes. -/
theorem storeAndAdvance_storesBytes {s : State} {x : Except Fault State} {a : Word} {bytes : List Byte} {n : Nat}
    {v : Nat → Byte} (hx : x = .ok (s.storeBytes a bytes)) (h : StoresBytes s (s.storeBytes a bytes) a n v) :
    ∃ t, storeAndAdvance x = .next t ∧ StoresBytes s t a n v := by
  rw [hx]; exact ⟨_, rfl, h.advance⟩

/-- The bytes of a word's low half are the word's own. -/
theorem byte_lowHalf (x : Word) {i : Nat} (hi : i < 2) :
    BitVec.ofNat 8 ((x.extractLsb' 0 16).toNat / 2 ^ (8 * i)) = BitVec.ofNat 8 (x.toNat / 2 ^ (8 * i)) := by
  apply BitVec.eq_of_toNat_eq
  simp only [BitVec.extractLsb'_toNat, BitVec.toNat_ofNat]
  match i, hi with
  | 0, _ | 1, _ => omega

/-- Settles O47: each store hands the port a part of `rt`, whose bytes are those of `rt`. -/
theorem storesWriteTheLowBytes : Obligations.StoresWriteTheLowBytes := by
  unfold Obligations.StoresWriteTheLowBytes
  refine ⟨encodedPrimary_of_row (by decide) fun _ h => by simp [decodePrimary, h],
    encodedPrimary_of_row (by decide) fun _ h => by simp [decodePrimary, h],
    encodedPrimary_of_row (by decide) fun _ h => by simp [decodePrimary, h],
    fun rt base offset s => ⟨fun h => ?_, fun h => ?_, fun h => ?_⟩⟩
  · refine storeAndAdvance_storesBytes (State.write8_of_admits h _) ((s.storesBytes_byte _ _).congr fun i hi => ?_)
    obtain rfl : i = 0 := by omega
    exact extractByte_eq_ofNat _ 0
  · exact storeAndAdvance_storesBytes (State.write16_of_admits h _)
      ((s.storesBytes_half _ _).congr fun i hi => byte_lowHalf _ hi)
  · exact storeAndAdvance_storesBytes (State.write32_of_admits h _) (s.storesBytes_word _ _)

end Sys2Proof.Machine
end

section
/-! The partial-word loads and stores (45_unaligned.md R210 to R217). Every row of the tables is a shift by whole bytes whose
mask keeps the bytes the shift does not reach, so each merge is told by one number of bytes. -/

namespace Sys2Proof.Machine

/-! ### The tables as shifts by bytes (R210) -/

/-- The row of a left shift by `n` bytes: the `n` low bytes are kept. -/
def leftRow (n : Nat) : MergeRow := ⟨~~~(BitVec.allOnes 32 <<< (8 * n)), 8 * n⟩

/-- The row of a right shift by `n` bytes: the `n` high bytes are kept. -/
def rightRow (n : Nat) : MergeRow := ⟨~~~(BitVec.allOnes 32 >>> (8 * n)), 8 * n⟩

theorem lwlTable_eq (k : Fin 4) : lwlTable[k.val] = leftRow (3 - k.val) := by revert k; decide

theorem lwrTable_eq (k : Fin 4) : lwrTable[k.val] = rightRow k.val := by revert k; decide

theorem swlTable_eq (k : Fin 4) : swlTable[k.val] = rightRow (3 - k.val) := by revert k; decide

theorem swrTable_eq (k : Fin 4) : swrTable[k.val] = leftRow k.val := by revert k; decide

/-! ### The bytes of a word -/

theorem getLsbD_byteOfWord (v : Word) (j : Nat) {i : Nat} (hi : i < 8) :
    (byteOfWord v j).getLsbD i = v.getLsbD (8 * j + i) := by
  simp [byteOfWord, hi]

/-- Bit by bit: from bit 8n on the shifted word, below it the old one. -/
theorem getLsbD_mergeLeft (n : Nat) (old new : Word) {i : Nat} (hi : i < 32) :
    (mergeLeft (leftRow n) old new).getLsbD i = if 8 * n ≤ i then new.getLsbD (i - 8 * n) else old.getLsbD i := by
  simp only [mergeLeft, leftRow, BitVec.getLsbD_or, BitVec.getLsbD_and, BitVec.getLsbD_not, BitVec.getLsbD_shiftLeft,
    BitVec.getLsbD_allOnes, hi, decide_true, Bool.true_and]
  split_ifs with h
  · have hlow : i - 8 * n < 32 := by omega
    simp [Nat.not_lt.2 h, hlow]
  · simp [Nat.lt_of_not_le h]

/-- Bit by bit: below bit 32 - 8n the shifted word, from there on the old one. -/
theorem getLsbD_mergeRight (n : Nat) (old new : Word) {i : Nat} (hi : i < 32) :
    (mergeRight (rightRow n) old new).getLsbD i = if i + 8 * n < 32 then new.getLsbD (i + 8 * n) else old.getLsbD i := by
  simp only [mergeRight, rightRow, BitVec.getLsbD_or, BitVec.getLsbD_and, BitVec.getLsbD_not, BitVec.getLsbD_ushiftRight,
    BitVec.getLsbD_allOnes, hi, decide_true, Bool.true_and, Nat.add_comm (8 * n) i]
  split_ifs with h
  · simp [h]
  · simp [h, BitVec.getLsbD_of_ge new _ (Nat.le_of_not_lt h)]

theorem byteOfWord_mergeLeft (n : Nat) (old new : Word) {j : Nat} (hj : j < 4) :
    byteOfWord (mergeLeft (leftRow n) old new) j = if n ≤ j then byteOfWord new (j - n) else byteOfWord old j := by
  apply BitVec.eq_of_getLsbD_eq
  intro i hi
  have hreach : 8 * n ≤ 8 * j + i ↔ n ≤ j := by omega
  rw [getLsbD_byteOfWord _ _ hi, getLsbD_mergeLeft _ _ _ (by omega)]
  simp only [hreach]
  split_ifs
  · rw [getLsbD_byteOfWord _ _ hi, show 8 * j + i - 8 * n = 8 * (j - n) + i by omega]
  · rw [getLsbD_byteOfWord _ _ hi]

theorem byteOfWord_mergeRight (n : Nat) (old new : Word) {j : Nat} (hj : j < 4) :
    byteOfWord (mergeRight (rightRow n) old new) j =
      if j + n < 4 then byteOfWord new (j + n) else byteOfWord old j := by
  apply BitVec.eq_of_getLsbD_eq
  intro i hi
  have hreach : 8 * j + i + 8 * n < 32 ↔ j + n < 4 := by omega
  rw [getLsbD_byteOfWord _ _ hi, getLsbD_mergeRight _ _ _ (by omega)]
  simp only [hreach]
  split_ifs
  · rw [getLsbD_byteOfWord _ _ hi, show 8 * j + i + 8 * n = 8 * (j + n) + i by omega]
  · rw [getLsbD_byteOfWord _ _ hi]

theorem byteOfWord_wordOfBytes (m : Nat → Byte) {j : Nat} (hj : j < 4) :
    byteOfWord (wordOfBytes (m 0) (m 1) (m 2) (m 3)) j = m j := by
  match j, hj with
  | 0, _ => exact extractLsb'_low _ _
  | 1, _ => exact (extractLsb'_skip (l := 8) 0 8 _ _).trans (extractLsb'_low _ _)
  | 2, _ =>
    exact (extractLsb'_skip (l := 8) 8 8 _ _).trans
      ((extractLsb'_skip (l := 8) 0 8 _ _).trans (extractLsb'_low _ _))
  | 3, _ =>
    exact (extractLsb'_skip (l := 8) 16 8 _ _).trans
      ((extractLsb'_skip (l := 8) 8 8 _ _).trans (extractLsb'_high _ _))

/-- Two words with the same four bytes are the same. -/
theorem eq_of_byteOfWord_eq {x y : Word} (h : ∀ j, j < 4 → byteOfWord x j = byteOfWord y j) : x = y := by
  apply BitVec.eq_of_getLsbD_eq
  intro i hi
  have hbit : 8 * (i / 8) + i % 8 = i := by omega
  have := congrArg (·.getLsbD (i % 8)) (h (i / 8) (by omega))
  simpa only [getLsbD_byteOfWord _ _ (Nat.mod_lt i (by decide : 0 < 8)), hbit] using this

theorem State.storesBytes_bytesOfWord (s : State) (a v : Word) :
    StoresBytes s (s.storeBytes a (bytesOfWord v)) a 4 (byteOfWord v) :=
  (s.storesBytes_word a v).congr fun i _ => (extractByte_eq_ofNat v i).symm

/-! ### The handlers where the aligned word is readable -/

section
variable {s : State} {rt base : Reg} {offset : Half} {m : Nat → Byte} {k : Nat}

theorem mergeLoad_of_holdsBytes {ea : Word} (h : HoldsBytes s (alignedAddress ea) 4 m) (f : Word → Word → Word) :
    mergeLoad s rt ea f = writeAndAdvance s rt (f (s.getGpr rt) (wordOfBytes (m 0) (m 1) (m 2) (m 3))) := by
  rw [mergeLoad, State.read32_eq h]; rfl

theorem mergeStore_storesBytes {ea : Word} (h : HoldsBytes s (alignedAddress ea) 4 m) (f : Word → Word → Word) :
    ∃ t, mergeStore s rt ea f = .next t ∧ StoresBytes s t (alignedAddress ea) 4
      (byteOfWord (f (wordOfBytes (m 0) (m 1) (m 2) (m 3)) (s.getGpr rt))) := by
  rw [mergeStore, State.read32_eq h]
  exact storeAndAdvance_storesBytes (State.write32_of_admits h.1 _) (s.storesBytes_bytesOfWord _ _)

variable (hk : k = (effectiveAddress s base offset).toNat % 4)
  (h : HoldsBytes s (alignedAddress (effectiveAddress s base offset)) 4 m)
include hk h

/-- R212, by bytes: `lwl` moves the word up by 3 - k bytes. -/
theorem exec_lwl_bytes : ∃ t v, exec (.lwl rt base offset) s = .next t ∧ WritesGpr s t rt v ∧
    ∀ j, j < 4 → byteOfWord v j = if 3 ≤ j + k then m (j + k - 3) else byteOfWord (s.getGpr rt) j := by
  refine exec_writesGpr_satisfying (mergeLoad_of_holdsBytes h _) fun j hj => ?_
  rw [lwlTable_eq, byteOfWord_mergeLeft _ _ _ hj, byteOffset_val, ← hk]
  have hiff : 3 - k ≤ j ↔ 3 ≤ j + k := by omega
  simp only [hiff]
  split_ifs
  · rw [byteOfWord_wordOfBytes m (by omega), show j - (3 - k) = j + k - 3 by omega]
  · rfl

/-- R213, by bytes: `lwr` moves the word down by k bytes. -/
theorem exec_lwr_bytes : ∃ t v, exec (.lwr rt base offset) s = .next t ∧ WritesGpr s t rt v ∧
    ∀ j, j < 4 → byteOfWord v j = if j + k ≤ 3 then m (j + k) else byteOfWord (s.getGpr rt) j := by
  refine exec_writesGpr_satisfying (mergeLoad_of_holdsBytes h _) fun j hj => ?_
  rw [lwrTable_eq, byteOfWord_mergeRight _ _ _ hj, byteOffset_val, ← hk]
  simp only [Nat.lt_succ_iff]
  split_ifs
  · rw [byteOfWord_wordOfBytes m (by omega)]
  · rfl

/-- R214, by bytes: `swl` moves the register down by 3 - k bytes. -/
theorem exec_swl_bytes : ∃ t, exec (.swl rt base offset) s = .next t ∧
    StoresBytes s t (alignedAddress (effectiveAddress s base offset)) 4
      (fun i => if i ≤ k then byteOfWord (s.getGpr rt) (i + 3 - k) else m i) := by
  obtain ⟨t, ht, hstores⟩ := mergeStore_storesBytes (rt := rt) h (mergeRight swlTable[(byteOffset _).val])
  refine ⟨t, ht, hstores.congr fun i hi => ?_⟩
  rw [swlTable_eq, byteOfWord_mergeRight _ _ _ hi, byteOffset_val, ← hk]
  have hiff : i + (3 - k) < 4 ↔ i ≤ k := by omega
  simp only [hiff]
  split_ifs
  · rw [show i + (3 - k) = i + 3 - k by omega]
  · exact byteOfWord_wordOfBytes m hi

/-- R215, by bytes: `swr` moves the register up by k bytes. -/
theorem exec_swr_bytes : ∃ t, exec (.swr rt base offset) s = .next t ∧
    StoresBytes s t (alignedAddress (effectiveAddress s base offset)) 4
      (fun i => if k ≤ i then byteOfWord (s.getGpr rt) (i - k) else m i) := by
  obtain ⟨t, ht, hstores⟩ := mergeStore_storesBytes (rt := rt) h (mergeLeft swrTable[(byteOffset _).val])
  refine ⟨t, ht, hstores.congr fun i hi => ?_⟩
  rw [swrTable_eq, byteOfWord_mergeLeft _ _ _ hi, byteOffset_val, ← hk]
  split_ifs
  · rfl
  · exact byteOfWord_wordOfBytes m hi

end

/-- Settles O48: each load is the merge of its table's row, told by the number of bytes the row shifts by. -/
theorem partialLoadsMergeBytes : Obligations.PartialLoadsMergeBytes := by
  unfold Obligations.PartialLoadsMergeBytes
  exact ⟨encodedPrimary_of_row (by decide) fun _ h => by simp [decodePrimary, h],
    encodedPrimary_of_row (by decide) fun _ h => by simp [decodePrimary, h],
    fun rt base offset s m k hk h => ⟨exec_lwl_bytes hk h, exec_lwr_bytes hk h⟩⟩

/-- Settles O49: the merged word's bytes, and no other byte is stored. -/
theorem partialStoresMergeBytes : Obligations.PartialStoresMergeBytes := by
  unfold Obligations.PartialStoresMergeBytes
  exact ⟨encodedPrimary_of_row (by decide) fun _ h => by simp [decodePrimary, h],
    encodedPrimary_of_row (by decide) fun _ h => by simp [decodePrimary, h],
    fun rt base offset s m k hk h => ⟨exec_swl_bytes hk h, exec_swr_bytes hk h⟩⟩

end Sys2Proof.Machine
end

section
/-! The pairs of partial-word accesses (R216): `swl` or `lwl` at X + 3 reaches the bytes of the unaligned word at X from
3 - k on, `swr` or `lwr` at X those below 4 - (X mod 4), and together they reach all four. -/

namespace Sys2Proof.Machine

/-! ### Stores of a part, and of two parts -/

section
variable {s t u : State} {a : Word} {n p q l l' : Nat} {v : Nat → Byte}

/-- A store that leaves the bytes outside a part as they were is a store of that part. -/
theorem StoresBytes.part (h : StoresBytes s t a n v) (hpl : p + l ≤ n)
    (hsame : ∀ i, i < n → (i < p ∨ p + l ≤ i) → s.mem.read (a + BitVec.ofNat 32 i).toNat = some (v i)) :
    StoresBytes s t (a + BitVec.ofNat 32 p) l (fun i => v (p + i)) := by
  obtain ⟨hin, hout, hframe⟩ := h
  refine ⟨fun i hi => ?_, fun c hc => ?_, hframe⟩
  · rw [add_ofNat_add]
    exact hin _ (by omega)
  · by_cases hreach : ∃ i, i < n ∧ c = (a + BitVec.ofNat 32 i).toNat
    · obtain ⟨i, hi, rfl⟩ := hreach
      have houtside : i < p ∨ p + l ≤ i := by
        by_contra hinside
        obtain ⟨j, rfl⟩ := Nat.exists_eq_add_of_le (by omega : p ≤ i)
        exact hc j (by omega) (by rw [add_ofNat_add])
      rw [hin i hi, hsame i hi houtside]
    · exact hout c fun i hi hci => hreach ⟨i, hi, hci⟩

/-- Two stores of parts that together reach every byte store the whole. -/
theorem StoresBytes.union (h1 : StoresBytes s t (a + BitVec.ofNat 32 p) l (fun i => v (p + i)))
    (h2 : StoresBytes t u (a + BitVec.ofNat 32 q) l' (fun i => v (q + i))) (hp : p + l ≤ n) (hq : q + l' ≤ n)
    (hcover : ∀ i, i < n → (p ≤ i ∧ i < p + l) ∨ (q ≤ i ∧ i < q + l')) (hn : n ≤ 2 ^ 32) : StoresBytes s u a n v := by
  obtain ⟨hin1, hout1, hgpr1, ⟨hhi1, hlo1⟩, hcop1, ⟨hhalt1, hparams1⟩⟩ := h1
  obtain ⟨hin2, hout2, hgpr2, ⟨hhi2, hlo2⟩, hcop2, ⟨hhalt2, hparams2⟩⟩ := h2
  refine ⟨fun i hi => ?_, fun c hc => ?_, fun r => (hgpr2 r).trans (hgpr1 r), ⟨hhi2.trans hhi1, hlo2.trans hlo1⟩,
    fun z r => (hcop2 z r).trans (hcop1 z r), ⟨hhalt2.trans hhalt1, hparams2.trans hparams1⟩⟩
  · by_cases hiq : q ≤ i ∧ i < q + l'
    · obtain ⟨j, rfl⟩ := Nat.exists_eq_add_of_le hiq.1
      rw [← add_ofNat_add]
      exact hin2 j (by omega)
    · have hip := (hcover i hi).resolve_right hiq
      rw [hout2]
      · obtain ⟨j, rfl⟩ := Nat.exists_eq_add_of_le hip.1
        rw [← add_ofNat_add]
        exact hin1 j (by omega)
      · intro j hj hij
        rw [add_ofNat_add, add_ofNat_toNat_inj a (by omega) (by omega)] at hij
        omega
  · rw [hout2 c, hout1 c]
    all_goals
      intro j hj
      rw [add_ofNat_add]
      exact hc _ (by omega)

/-- What was readable before a store is readable after it. -/
theorem StoresBytes.keepsReadable (h : StoresBytes s t a n v) {a' : Word} {n' : Nat} {m : Nat → Byte}
    (hm : HoldsBytes s a' n' m) : ∃ m', HoldsBytes t a' n' m' := by
  obtain ⟨hadm, hread⟩ := hm
  have hsome : ∀ i, i < n' → ∃ b, t.mem.read (a' + BitVec.ofNat 32 i).toNat = some b := by
    intro i hi
    by_cases hreach : ∃ j, j < n ∧ (a' + BitVec.ofNat 32 i).toNat = (a + BitVec.ofNat 32 j).toNat
    · obtain ⟨j, hj, heq⟩ := hreach
      exact ⟨v j, heq ▸ h.1 j hj⟩
    · exact ⟨m i, (h.2.1 _ fun j hj heq => hreach ⟨j, hj, heq⟩).trans (hread i hi)⟩
  choose! m' hm' using hsome
  exact ⟨m', (h.admits a' n').trans hadm, hm'⟩

theorem StoresBytes.effectiveAddress (h : StoresBytes s t a n v) (base : Reg) (offset : Half) :
    effectiveAddress t base offset = effectiveAddress s base offset := by
  obtain ⟨-, -, hgpr, -⟩ := h
  exact congrArg (· + sext16 offset) (hgpr base)

theorem StoresBytes.getGpr (h : StoresBytes s t a n v) (r : Reg) : t.getGpr r = s.getGpr r := h.2.2.1 r

end

/-! ### Where the aligned word lies -/

/-- The aligned word lies k bytes below the address, k being its low two bits (R211). -/
theorem alignedAddress_add (ea : Word) : alignedAddress ea + BitVec.ofNat 32 (ea.toNat % 4) = ea := by
  apply BitVec.eq_of_toNat_eq
  have := ea.isLt
  rw [BitVec.toNat_add, toNat_alignedAddress, BitVec.toNat_ofNat]
  omega

/-- The aligned word of X + 3 begins 3 - k bytes above X. -/
theorem alignedAddress_add_three (X : Word) :
    alignedAddress (X + 3) = X + BitVec.ofNat 32 (3 - (X + 3).toNat % 4) := by
  have h := alignedAddress_add (X + 3)
  apply BitVec.eq_of_toNat_eq
  bv_omega

theorem add_three_mod (X : Word) : (X + 3).toNat % 4 = (X.toNat + 3) % 4 := by
  bv_omega

/-! ### Each instruction of a store pair -/

section
variable {s : State} {rt base : Reg} {offset : Half} {X : Word} {m : Nat → Byte}

/-- `swl` at X + 3 stores the bytes of the unaligned word from 3 - k on. -/
theorem exec_swl_part (hea : effectiveAddress s base offset = X + 3) (h : HoldsBytes s (alignedAddress (X + 3)) 4 m) :
    ∃ t, exec (.swl rt base offset) s = .next t ∧
      StoresBytes s t (X + BitVec.ofNat 32 (3 - (X + 3).toNat % 4)) ((X + 3).toNat % 4 + 1)
        (fun i => byteOfWord (s.getGpr rt) (3 - (X + 3).toNat % 4 + i)) := by
  obtain ⟨t, ht, hstores⟩ := exec_swl_bytes (rt := rt) rfl (hea ▸ h)
  rw [hea] at hstores
  have hpart := hstores.part (p := 0) (l := (X + 3).toNat % 4 + 1) (by omega) fun i hi hi' => by
    rw [if_neg (by omega)]
    exact h.2 i hi
  rw [BitVec.add_zero, alignedAddress_add_three] at hpart
  refine ⟨t, ht, hpart.congr fun i hi => ?_⟩
  rw [if_pos (by omega)]
  congr 1
  omega

/-- `swr` at X stores the bytes of the unaligned word below 4 - k. -/
theorem exec_swr_part (hea : effectiveAddress s base offset = X) (h : HoldsBytes s (alignedAddress X) 4 m) :
    ∃ t, exec (.swr rt base offset) s = .next t ∧
      StoresBytes s t (X + BitVec.ofNat 32 0) (4 - X.toNat % 4) (fun i => byteOfWord (s.getGpr rt) (0 + i)) := by
  obtain ⟨t, ht, hstores⟩ := exec_swr_bytes (rt := rt) rfl (hea ▸ h)
  rw [hea] at hstores
  have hpart := hstores.part (p := X.toNat % 4) (l := 4 - X.toNat % 4) (by omega) fun i hi hi' => by
    rw [if_neg (by omega)]
    exact h.2 i hi
  rw [alignedAddress_add] at hpart
  rw [BitVec.add_zero]
  refine ⟨t, ht, hpart.congr fun i hi => ?_⟩
  rw [if_pos (by omega)]
  congr 1
  omega

end

/-- Settles O50: the two parts reach every byte of the unaligned word, and the first store leaves the second's aligned word
readable. -/
theorem storePairWritesTheUnalignedWord : Obligations.StorePairWritesTheUnalignedWord := by
  unfold Obligations.StorePairWritesTheUnalignedWord
  intro rt b1 b2 o1 o2 s X m1 m2 hea1 hea2 h1 h2
  have hk := add_three_mod X
  constructor
  · obtain ⟨t, ht, hst⟩ := exec_swl_part (rt := rt) hea1 h1
    obtain ⟨m, hm⟩ := hst.keepsReadable h2
    obtain ⟨u, hu, htu⟩ := exec_swr_part (rt := rt) ((hst.effectiveAddress b2 o2).trans hea2) hm
    rw [hst.getGpr rt] at htu
    exact ⟨t, u, ht, hu, hst.union htu (by omega) (by omega) (by omega) (by omega)⟩
  · obtain ⟨t, ht, hst⟩ := exec_swr_part (rt := rt) hea2 h2
    obtain ⟨m, hm⟩ := hst.keepsReadable h1
    obtain ⟨u, hu, htu⟩ := exec_swl_part (rt := rt) ((hst.effectiveAddress b1 o1).trans hea1) hm
    rw [hst.getGpr rt] at htu
    exact ⟨t, u, ht, hu, hst.union htu (by omega) (by omega) (by omega) (by omega)⟩

/-! ### Each instruction of a load pair -/

section
variable {s t : State} {rt base : Reg} {offset : Half} {X : Word} {m m' : Nat → Byte}

/-- Two accesses that hold the same byte of memory agree on it. -/
theorem HoldsBytes.agree {a a' : Word} {n n' i j : Nat} (h : HoldsBytes s a n m) (h' : HoldsBytes s a' n' m')
    (hi : i < n) (hj : j < n') (heq : a + BitVec.ofNat 32 i = a' + BitVec.ofNat 32 j) : m i = m' j := by
  have hread := h.2 i hi
  rw [heq, h'.2 j hj] at hread
  exact (Option.some.inj hread).symm

/-- `lwl` at X + 3 puts the bytes of the unaligned word from 3 - k on in their places of `rt`. -/
theorem exec_lwl_part (hea : effectiveAddress s base offset = X + 3) (h : HoldsBytes s X 4 m)
    (h' : HoldsBytes s (alignedAddress (X + 3)) 4 m') :
    ∃ t v, exec (.lwl rt base offset) s = .next t ∧ WritesGpr s t rt v ∧
      ∀ j, j < 4 → byteOfWord v j = if 3 ≤ j + (X + 3).toNat % 4 then m j else byteOfWord (s.getGpr rt) j := by
  obtain ⟨t, v, ht, hw, hv⟩ := exec_lwl_bytes (rt := rt) rfl (hea ▸ h')
  rw [hea] at hv
  refine ⟨t, v, ht, hw, fun j hj => ?_⟩
  rw [hv j hj]
  split_ifs with hreach
  · refine h'.agree h (by omega) hj ?_
    rw [alignedAddress_add_three, add_ofNat_add]
    congr 2
    omega
  · rfl

/-- `lwr` at X puts the bytes of the unaligned word below 4 - k in their places of `rt`. -/
theorem exec_lwr_part (hea : effectiveAddress s base offset = X) (h : HoldsBytes s X 4 m)
    (h' : HoldsBytes s (alignedAddress X) 4 m') :
    ∃ t v, exec (.lwr rt base offset) s = .next t ∧ WritesGpr s t rt v ∧
      ∀ j, j < 4 → byteOfWord v j = if j + X.toNat % 4 ≤ 3 then m j else byteOfWord (s.getGpr rt) j := by
  obtain ⟨t, v, ht, hw, hv⟩ := exec_lwr_bytes (rt := rt) rfl (hea ▸ h')
  rw [hea] at hv
  refine ⟨t, v, ht, hw, fun j hj => ?_⟩
  rw [hv j hj]
  split_ifs with hreach
  · refine h'.agree h (by omega) hj ?_
    conv_rhs => rw [← alignedAddress_add X]
    rw [add_ofNat_add, Nat.add_comm]
  · rfl

theorem WritesGpr.holdsBytes {v : Word} (hw : WritesGpr s t rt v) {a : Word} {n : Nat} (h : HoldsBytes s a n m) :
    HoldsBytes t a n m := by
  obtain ⟨-, -, -, -, hmem, -, hparams⟩ := hw
  exact ⟨(State.admits_congr hparams a n).trans h.1, fun i hi => (hmem _).trans (h.2 i hi)⟩

/-- Two writes to one register are the second one. -/
theorem WritesGpr.trans {u : State} {d : Reg} {v w : Word} (h1 : WritesGpr s t d v) (h2 : WritesGpr t u d w) :
    WritesGpr s u d w := by
  obtain ⟨-, hbut1, ⟨hhi1, hlo1⟩, hcop1, hmem1, ⟨hhalt1, hparams1⟩⟩ := h1
  obtain ⟨hval, hbut2, ⟨hhi2, hlo2⟩, hcop2, hmem2, ⟨hhalt2, hparams2⟩⟩ := h2
  exact ⟨hval, fun r hr => (hbut2 r hr).trans (hbut1 r hr), ⟨hhi2.trans hhi1, hlo2.trans hlo1⟩,
    fun z r => (hcop2 z r).trans (hcop1 z r), fun a => (hmem2 a).trans (hmem1 a),
    ⟨hhalt2.trans hhalt1, hparams2.trans hparams1⟩⟩

/-- Two writes to one register are a write of any value that the second's equals where the first's is read back; a write to
register 0 has no value to compare (R31). -/
theorem WritesGpr.trans_of_eq {u : State} {d : Reg} {v w x : Word} (h1 : WritesGpr s t d v) (h2 : WritesGpr t u d w)
    (hx : t.getGpr d = v → w = x) : WritesGpr s u d x := by
  by_cases hd : d = 0
  · subst hd
    obtain ⟨hval, hrest⟩ := h1.trans h2
    exact ⟨hval.trans (by simp), hrest⟩
  · have hv : t.getGpr d = v := h1.1.trans (if_neg hd)
    exact hx hv ▸ h1.trans h2

end

/-- Settles O51: the bytes the second load leaves are those the first one placed. -/
theorem loadPairReadsTheUnalignedWord : Obligations.LoadPairReadsTheUnalignedWord := by
  unfold Obligations.LoadPairReadsTheUnalignedWord
  intro rt b1 b2 o1 o2 s X m m1 m2 h h1 h2
  have hk := add_three_mod X
  refine ⟨fun hea1 => ?_, fun hea2 => ?_⟩
  · obtain ⟨t, v, ht, hst, hv⟩ := exec_lwl_part (rt := rt) hea1 h h1
    refine ⟨t, ht, fun hea2 => ?_⟩
    obtain ⟨u, w, hu, htu, hw⟩ := exec_lwr_part (rt := rt) hea2 (hst.holdsBytes h) (hst.holdsBytes h2)
    refine ⟨u, hu, hst.trans_of_eq htu fun hread => eq_of_byteOfWord_eq fun j hj => ?_⟩
    rw [byteOfWord_wordOfBytes m hj, hw j hj, hread, hv j hj]
    split_ifs
    · rfl
    · rfl
    · omega
  · obtain ⟨t, v, ht, hst, hv⟩ := exec_lwr_part (rt := rt) hea2 h h2
    refine ⟨t, ht, fun hea1 => ?_⟩
    obtain ⟨u, w, hu, htu, hw⟩ := exec_lwl_part (rt := rt) hea1 (hst.holdsBytes h) (hst.holdsBytes h1)
    refine ⟨u, hu, hst.trans_of_eq htu fun hread => eq_of_byteOfWord_eq fun j hj => ?_⟩
    rw [byteOfWord_wordOfBytes m hj, hw j hj, hread, hv j hj]
    split_ifs
    · rfl
    · rfl
    · omega

end Sys2Proof.Machine
end

section
/-! The jumps and branches outside a delay slot (46_control.md R230 to R246): their targets in integers, and the one fact about
each way a handler ends. -/

namespace Sys2Proof.Machine

/-! ### Targets (R87, R240) -/

/-- The target field fills the bits below the region bits of PC + 4, four bytes to a word (R87). -/
theorem jumpTarget_eq_ofNat (s : State) (target : BitVec 26) :
    jumpTarget s target = BitVec.ofNat 32 ((s.pc + 4).toNat / 2 ^ 28 * 2 ^ 28 + 4 * target.toNat) := by
  have hregion : ((s.pc + 4) &&& 0xF0000000#32).toNat = (s.pc + 4).toNat / 2 ^ 28 * 2 ^ 28 := toNat_and_highMask _ 28
  have hfield : (target.setWidth 32 <<< 2).toNat = 4 * target.toNat := by
    rw [BitVec.toNat_shiftLeft, BitVec.toNat_setWidth, Nat.shiftLeft_eq]; omega
  have hlow : 4 * target.toNat < 2 ^ 28 := by omega
  apply BitVec.eq_of_toNat_eq
  calc (jumpTarget s target).toNat
      = (s.pc + 4).toNat / 2 ^ 28 * 2 ^ 28 ||| 4 * target.toNat := by rw [← hregion, ← hfield]; exact BitVec.toNat_or ..
    _ = (s.pc + 4).toNat / 2 ^ 28 * 2 ^ 28 + 4 * target.toNat := by
        rw [← Nat.shiftLeft_eq, Nat.shiftLeft_add_eq_or_of_lt hlow]
    _ = _ := by rw [BitVec.toNat_ofNat]; have := (s.pc + 4).isLt; omega

theorem branchOffset_eq_ofInt (offset : Half) : branchOffset offset = BitVec.ofInt 32 (4 * offset.toInt) := by
  rw [branchOffset, BitVec.ofInt_mul, ← toInt_sext16, BitVec.ofInt_toInt, BitVec.mul_comm]
  exact BitVec.eq_of_toNat_eq (by rw [BitVec.toNat_shiftLeft, Nat.shiftLeft_eq, BitVec.toNat_mul]; rfl)

/-- The branch target is PC + 4 plus four times the signed offset, mod 2^32 (R240). -/
theorem branchTarget_eq_ofInt (pc : Word) (offset : Half) :
    pc + 4#32 + branchOffset offset = BitVec.ofInt 32 (pc.toNat + 4 + 4 * offset.toInt) := by
  rw [branchOffset_eq_ofInt, BitVec.ofInt_add, BitVec.ofInt_add, BitVec.ofInt_natCast, BitVec.ofNat_toNat,
    BitVec.setWidth_eq]
  rfl

/-! ### The ends of the handlers outside a delay slot -/

/-- The state in which only the program counter and the owed redirect are other ones. -/
theorem onlyControl_redirect (s : State) (pc : Word) (pending : Option Word) :
    OnlyControl s { s with pc := pc, pending := pending } :=
  ⟨fun _ => rfl, ⟨rfl, rfl⟩, fun _ _ => rfl, fun _ => rfl, rfl, rfl⟩

theorem OnlyControl.setGpr {s u : State} (h : OnlyControl s u) (d : Reg) (v : Word) :
    WritesGpr s (u.setGpr d v) d v := by
  obtain ⟨hgpr, hhilo, hcop, hmem, hsetup⟩ := h
  exact ⟨by simp, fun r hr => (u.getGpr_setGpr_ne v hr).trans (hgpr r), by simpa [SameHiLo] using hhilo,
    fun z r => by simpa using hcop z r, fun a => by simpa using hmem a, by simpa [SameSetup] using hsetup⟩

section
variable {s : State} (h : s.pending = none)
include h

theorem jumpTo_free (a : Word) :
    ∃ t, jumpTo s a = .next t ∧ OnlyControl s t ∧ t.pc = s.pc + 4 ∧ t.pending = some a := by
  rw [jumpTo, State.jp_free h]
  exact ⟨_, rfl, onlyControl_redirect .., rfl, rfl⟩

theorem jumpAndLink_free (a : Word) (r : Reg) :
    ∃ t, jumpAndLink s a r = .next t ∧ WritesGpr s t r (s.pc + 8) ∧ t.pc = s.pc + 4 ∧ t.pending = some a := by
  rw [jumpAndLink, State.jp_free h]
  exact ⟨_, rfl, (onlyControl_redirect s _ _).setGpr r _, by simp, by simp⟩

/-- A branch owes its target exactly where its condition, told as a proposition, holds. -/
theorem branchOn_free {c : Bool} {p : Prop} [Decidable p] (hc : c = decide p) (offset : Half) :
    ∃ t, branchOn s c offset = .next t ∧ OnlyControl s t ∧ t.pc = s.pc + 4 ∧
      t.pending = if p then some (BitVec.ofInt 32 (s.pc.toNat + 4 + 4 * offset.toInt)) else none := by
  rw [branchOn, State.branch_free h, branchTarget_eq_ofInt, hc]
  exact ⟨_, rfl, onlyControl_redirect .., rfl, by simp⟩

end

/-! ### The conditions -/

theorem beq_eq_decide_toNat (x y : Word) : (x == y) = decide (x.toNat = y.toNat) := by
  rw [Bool.beq_eq_decide_eq]; simp only [BitVec.toNat_inj]

theorem bne_eq_decide_toNat (x y : Word) : (x != y) = decide (¬ x.toNat = y.toNat) := by
  rw [bne, beq_eq_decide_toNat, decide_not]

/-- The sign is bit 31 (R245). -/
theorem belowZero_eq_decide (x : Word) : belowZero x = decide (x.getLsbD 31 = true) := by
  rw [belowZero, ← BitVec.msb_eq_toInt, BitVec.msb_eq_getLsbD_last, Bool.decide_eq_true]

theorem atLeastZero_eq_decide (x : Word) : atLeastZero x = decide (¬ x.getLsbD 31 = true) := by
  rw [decide_not, ← belowZero_eq_decide, atLeastZero, belowZero, ← decide_not]
  simp only [not_lt]

/-! ### The statements -/

theorem encodedRegimm_of_row {f : BitVec 5} {i : Word → Instr}
    (h : ∀ w, rtBits w = f → decodeRegimm w = .instr (i w)) : EncodedRegimm f i :=
  fun w ho hf => (decode_eq_decodeRegimm ho).trans (h w hf)

/-- Settles O52: the port owes the address it is given, and the link is written after it. -/
theorem jumpsOweTheirTarget : Obligations.JumpsOweTheirTarget := by
  unfold Obligations.JumpsOweTheirTarget
  refine ⟨encodedPrimary_of_row (by decide) fun _ h => by simp [decodePrimary, h],
    encodedPrimary_of_row (by decide) fun _ h => by simp [decodePrimary, h],
    encodedSpecial_of_row fun _ h => by simp [decodeSpecial, h],
    encodedSpecial_of_row fun _ h => by simp [decodeSpecial, h],
    fun s target rs rd h => ?_⟩
  rw [← jumpTarget_eq_ofNat]
  exact ⟨jumpTo_free h _, jumpAndLink_free h _ 31, jumpTo_free h _, jumpAndLink_free h _ rd⟩

/-- Settles O53: each branch is one condition handed to the port. -/
theorem branchesOweTheirTargetWhenTaken : Obligations.BranchesOweTheirTargetWhenTaken := by
  unfold Obligations.BranchesOweTheirTargetWhenTaken
  refine ⟨encodedPrimary_of_row (by decide) fun _ h => by simp [decodePrimary, h],
    encodedPrimary_of_row (by decide) fun _ h => by simp [decodePrimary, h],
    encodedPrimary_of_row (by decide) fun _ h => by simp [decodePrimary, h],
    encodedPrimary_of_row (by decide) fun _ h => by simp [decodePrimary, h],
    encodedRegimm_of_row fun _ h => by simp [decodeRegimm, h],
    encodedRegimm_of_row fun _ h => by simp [decodeRegimm, h],
    ?_⟩
  rintro s rs rt offset _ h rfl
  refine ⟨?_, ?_, ?_, ?_, ?_, ?_⟩
  · exact branchOn_free h (beq_eq_decide_toNat _ _) offset
  · have hbne := branchOn_free h (bne_eq_decide_toNat (s.getGpr rs) (s.getGpr rt)) offset
    simp only [ite_not] at hbne
    exact hbne
  · exact branchOn_free h rfl offset
  · exact branchOn_free h rfl offset
  · exact branchOn_free h (belowZero_eq_decide _) offset
  · have hbgez := branchOn_free h (atLeastZero_eq_decide (s.getGpr rs)) offset
    simp only [ite_not] at hbgez
    exact hbgez

end Sys2Proof.Machine
end

section
/-! The coprocessor moves, the system call and the return (47_coprocessor.md R260 to R262; 60_exceptions.md R293 to R296). -/

namespace Sys2Proof.Machine

/-! ### The coprocessor table (R92) -/

theorem opcode_of_copHighBits {w : Word} (h : w.extractLsb' 28 4 = 0b0100#4) : (opcodeOf w).toNat / 4 = 4 := by
  have h := congrArg BitVec.toNat h
  simp only [BitVec.extractLsb'_toNat, BitVec.toNat_ofNat] at h
  simp only [opcodeOf, BitVec.extractLsb'_toNat]
  omega

theorem encodedCop_of_row {sub : BitVec 5} {i : Word → Instr} (h : ∀ w, rsBits w = sub → decodeCop w = .instr (i w)) :
    EncodedCop sub i :=
  fun w hw hs => (decode_eq_decodeCop (opcode_of_copHighBits hw)).trans (h w hs)

/-- The word of `rfe` is told by its 11 high bits (R262): opcode 0x10, that is coprocessor 0, and sub-operation 0x10. -/
theorem decode_rfe {w : Word} (h : w.extractLsb' 21 11 = 0b01000010000#11) : decode w = .instr .rfe := by
  have h := congrArg BitVec.toNat h
  simp only [BitVec.extractLsb'_toNat, BitVec.toNat_ofNat] at h
  have hop : (opcodeOf w).toNat = 0x10 := by simp only [opcodeOf, BitVec.extractLsb'_toNat]; omega
  have hrs : rsBits w = 0x10#5 :=
    BitVec.eq_of_toNat_eq (by simp only [rsBits, BitVec.extractLsb'_toNat, BitVec.toNat_ofNat]; omega)
  have hz : copIdBits w = 0#2 := BitVec.eq_of_toNat_eq (by rw [copIdBits_toNat, hop]; rfl)
  rw [decode_eq_decodeCop (by rw [hop]), decodeCop, hrs, hz]
  rfl

/-! ### The frames of coprocessor writes -/

theorem writesCop_setCop_advance (s : State) (z : CopId) (r : Reg) (v : Word) :
    WritesCop s (s.setCop z r v).advance z r v := by
  refine ⟨by simp [State.getCop_setCop], fun z' r' hne => ?_, fun i => by simp, ⟨by simp, by simp⟩, fun a => by simp,
    ⟨by simp, by simp⟩⟩
  rw [State.getCop_advance, State.getCop_setCop, if_neg (by tauto)]

/-- Settles O54: the handler is the register write of COP_READ. -/
theorem mfcReadsTheCoprocessorRegister : Obligations.MfcReadsTheCoprocessorRegister := by
  unfold Obligations.MfcReadsTheCoprocessorRegister
  refine ⟨encodedCop_of_row fun _ h => by simp [decodeCop, h], fun z rt rd s => ⟨fun h => ?_, fun h => ?_⟩⟩
  · exact exec_writesGpr rfl (by rw [State.copReadValue, h])
  · exact exec_writesGpr rfl (by rw [State.copReadValue, h])

theorem exec_mtc_writesCop {z : CopId} {rt rd : Reg} {s : State} {v : Word}
    (h : s.copWriteValue z rd (s.getGpr rt) = v) : ∃ t, exec (.mtc z rt rd) s = .next t ∧ WritesCop s t z rd v :=
  ⟨_, rfl, h ▸ writesCop_setCop_advance ..⟩

/-- Settles O55: the handler is the store of COP_WRITE to one coprocessor register. -/
theorem mtcWritesTheCoprocessorRegister : Obligations.MtcWritesTheCoprocessorRegister := by
  unfold Obligations.MtcWritesTheCoprocessorRegister
  refine ⟨encodedCop_of_row fun _ h => by simp [decodeCop, h], fun z rt rd s => ⟨fun h => ?_, fun h => ?_⟩⟩
  · exact exec_mtc_writesCop (by rw [State.copWriteValue, h])
  · exact exec_mtc_writesCop (by rw [State.copWriteValue, h])

/-! ### The bits of Status and Cause (R295, R296) -/

/-- The pop copies bits 5 to 2 to bits 3 to 0. -/
theorem getLsbD_statusPopped (status : Word) {i : Nat} (hi : i < 32) :
    (statusPopped status).getLsbD i = status.getLsbD (if i < 4 then i + 2 else i) := by
  have hkeep : ∀ j, j < 32 → (0xFFFFFFF0#32).getLsbD j = decide (4 ≤ j) := by decide
  have hlow : ∀ j, j < 32 → (0xF#32).getLsbD j = decide (j < 4) := by decide
  simp only [statusPopped, BitVec.getLsbD_or, BitVec.getLsbD_and, BitVec.getLsbD_ushiftRight, hkeep i hi, hlow i hi]
  split_ifs with h
  · simp [h, Nat.not_le.2 h, Nat.add_comm]
  · simp [h, Nat.le_of_not_lt h]

/-- The push copies bits 3 to 0 to bits 5 to 2 and clears bits 1 and 0. -/
theorem getLsbD_statusPushed (status : Word) {i : Nat} (hi : i < 32) :
    (statusPushed status).getLsbD i =
      if i < 2 then false else if i < 6 then status.getLsbD (i - 2) else status.getLsbD i := by
  have hkeep : ∀ j, j < 32 → (0xFFFFFFC0#32).getLsbD j = decide (6 ≤ j) := by decide
  have hlow : ∀ j, j < 32 → (0xF#32).getLsbD j = decide (j < 4) := by decide
  simp only [statusPushed, BitVec.getLsbD_or, BitVec.getLsbD_and, BitVec.getLsbD_shiftLeft, hkeep i hi,
    hlow (i - 2) (by omega), hi]
  have hpush : i - 2 < 4 ↔ i < 6 := by omega
  have hold : 6 ≤ i ↔ ¬ i < 6 := by omega
  simp only [hpush, hold]
  split_ifs with h2 h6
  · have h6 : i < 6 := by omega
    simp [h2, h6]
  · simp [h2, h6]
  · simp [h6]

/-- BD is bit 31, ExcCode 8 is bit 5 of the bits 6 to 2. -/
theorem getLsbD_causeOfSyscall (cause : Word) (inSlot : Bool) {i : Nat} (hi : i < 32) :
    (causeOfSyscall cause inSlot).getLsbD i =
      if i = 31 then inSlot else if 2 ≤ i ∧ i ≤ 6 then decide (i = 5) else cause.getLsbD i := by
  have hkeep : ∀ j, j < 32 → (0x7FFFFF83#32).getLsbD j = decide (j ≠ 31 ∧ ¬ (2 ≤ j ∧ j ≤ 6)) := by decide
  have hcode : ∀ j, j < 32 → (8#32 <<< 2).getLsbD j = decide (j = 5) := by decide
  have hslot : ∀ b : Bool, ∀ j, j < 32 → (if b then 0x80000000#32 else 0#32).getLsbD j = (b && decide (j = 31)) := by
    decide
  simp only [causeOfSyscall, BitVec.getLsbD_or, BitVec.getLsbD_and, hkeep i hi, hcode i hi, hslot inSlot i hi]
  split_ifs with h31 hcodeBits
  · simp [h31]
  · simp [h31, hcodeBits]
  · have h5 : i ≠ 5 := by omega
    simp [h31, hcodeBits, h5]

/-! ### The return (R294, R296) -/

/-- A new bank of coprocessor 0 leaves everything else but the control. -/
theorem onlyEntryState_setCop0 (s : State) (bank : Vector Word 32) : OnlyEntryState s (s.setCop0 bank) :=
  ⟨fun z r hz => by simp [State.getCop_setCop0, hz], fun r => by simp, ⟨rfl, rfl⟩, fun _ => rfl, rfl, rfl⟩

theorem OnlyEntryState.advance {s t : State} (h : OnlyEntryState s t) : OnlyEntryState s t.advance := by
  obtain ⟨hcop, hgpr, hhilo, hmem, hsetup⟩ := h
  exact ⟨fun z r hz => by simpa using hcop z r hz, fun r => by simpa using hgpr r, by simpa [SameHiLo] using hhilo,
    fun a => by simpa using hmem a, by simpa [SameSetup] using hsetup⟩

/-- Settles O56: RFE_EFFECT keeps the program counter and the owed redirect, so the advance is that of the state itself. -/
theorem rfeAppliesItsEffect : Obligations.RfeAppliesItsEffect := by
  unfold Obligations.RfeAppliesItsEffect
  refine ⟨fun w => decode_rfe, fun s => ⟨s.returnFromException.advance, rfl,
    advanced_advance_of_same (by simp) (by simp), fun h => ?_, fun h => ?_, fun h => ?_⟩⟩
  · rw [State.returnFromException, h]
    exact s.onlyControl_advance
  · rw [State.returnFromException, h]
    exact ⟨_, writesCop_setCop_advance .., fun i hi => getLsbD_statusPopped _ hi⟩
  · rw [State.returnFromException, h]
    exact ⟨(onlyEntryState_setCop0 s _).advance, fun r => by simp [State.getCop_setCop0]⟩

/-! ### The system call (R293, R295) -/

/-- Settles O57: the handler is the port alone, and its default halts. -/
theorem syscallIsUnhandledByDefault : Obligations.SyscallIsUnhandledByDefault := by
  unfold Obligations.SyscallIsUnhandledByDefault
  refine ⟨encodedSpecial_of_row fun _ h => by simp [decodeSpecial, h], fun s h => ?_⟩
  rw [exec, execSyscall, State.syscallException, h]

/-- Settles O59: the entry's `pc` and bank are taken over, and the redirect is abandoned. -/
theorem syscallAppliesThePlatformEntry : Obligations.SyscallAppliesThePlatformEntry := by
  unfold Obligations.SyscallAppliesThePlatformEntry
  intro s h
  rw [exec, execSyscall, State.syscallException, h]
  exact ⟨_, rfl, onlyEntryState_setCop0 s _, rfl, rfl, fun r => s.getCop_setCop0 _ 0 r⟩

/-- The coprocessor registers the R3000A entry leaves, by register (R295). -/
theorem State.getCop_enterR3000a (s : State) (z : CopId) (r : Reg) :
    s.enterR3000a.getCop z r =
      if z = 0 ∧ r = 12 then statusPushed (s.getCop 0 12)
      else if z = 0 ∧ r = 13 then causeOfSyscall (s.getCop 0 13) s.pending.isSome
      else if z = 0 ∧ r = 14 then (if s.pending.isSome then s.pc - 4#32 else s.pc)
      else s.getCop z r := by
  simp only [← State.getCop_setCop]
  rfl

theorem onlyEntryState_enterR3000a (s : State) : OnlyEntryState s s.enterR3000a :=
  ⟨fun z r hz => by simp [State.getCop_enterR3000a, hz], fun _ => rfl, ⟨rfl, rfl⟩, fun _ => rfl, rfl, rfl⟩

/-- The restart address: the instruction, or the transfer before it when it stands in a delay slot (R295). -/
theorem restartAddress_eq (pc : Word) (pending : Option Word) :
    (if pending.isSome then pc - 4#32 else pc) = if pending = none then pc else BitVec.ofInt 32 (pc.toNat - 4) := by
  cases pending with
  | none => rfl
  | some x => exact sub_eq_ofInt_toNat pc 4#32

/-- Settles O58: each register that the entry writes, read back. -/
theorem syscallEntersTheR3000aHandler : Obligations.SyscallEntersTheR3000aHandler := by
  unfold Obligations.SyscallEntersTheR3000aHandler
  intro s h
  have hexec : exec .syscall s = .next s.enterR3000a := by rw [exec, execSyscall, State.syscallException, h]
  refine ⟨_, hexec, onlyEntryState_enterR3000a s, rfl, rfl, ?_, fun i hi => ?_, fun i hi => ?_, fun r h12 h13 h14 => ?_⟩
  · rw [← restartAddress_eq, State.getCop_enterR3000a]; rfl
  · rw [← getLsbD_causeOfSyscall _ _ hi, State.getCop_enterR3000a]; rfl
  · rw [← getLsbD_statusPushed _ hi, State.getCop_enterR3000a]; rfl
  · simp [State.getCop_enterR3000a, h12, h13, h14]

end Sys2Proof.Machine
end

section
/-! The launch, reset, and a platform's interrupt hook (10_state.md R40, 60_exceptions.md R298, 70_reset_and_hazards.md R311,
R315): memory built from a list of cells. -/

namespace Sys2Proof.Machine

/-! ### Memory from cells (log 7, 20) -/

/-- The first cell at an address, mod 2^32, counts. -/
theorem Memory.read_ofCells (cells : List Host.Cell) (a : Nat) :
    Memory.read (Memory.ofCells cells) a = (cells.find? fun c => c.1 % 2 ^ 32 == a).map (·.2) := by
  induction cells with
  | nil => rfl
  | cons c rest ih =>
    obtain ⟨k, b⟩ := c
    rw [Memory.ofCells, Memory.read_write, ih]
    by_cases h : k % 2 ^ 32 = a
    · rw [if_pos h.symm, List.find?_cons_of_pos (by simpa using h)]; rfl
    · rw [if_neg (Ne.symm h), List.find?_cons_of_neg (by simpa using h)]

/-- A canonical memory is read as the list of cells it is. -/
theorem Memory.read_eq_find?_of_wf {m : Memory} (h : m.wf) (a : Nat) :
    Memory.read m a = (m.find? fun c => c.1 % 2 ^ 32 == a).map (·.2) := by
  obtain ⟨-, hlt⟩ := h
  induction m with
  | nil => rfl
  | cons c rest ih =>
    obtain ⟨k, b⟩ := c
    have hk : k % 2 ^ 32 = a ↔ k = a := by rw [Nat.mod_eq_of_lt (hlt (k, b) (by simp))]
    rw [Memory.read, ih fun c hc => hlt c (by simp [hc])]
    by_cases hka : k = a
    · rw [if_pos hka, List.find?_cons_of_pos (by simpa using hk.2 hka)]; rfl
    · rw [if_neg hka, List.find?_cons_of_neg (by simpa using mt hk.1 hka)]

/-! ### Launch and reset -/

/-- Settles O13: the launch copies INIT's registers and builds memory from its image. -/
theorem launchTakesRegistersAndImageFromInit : Obligations.LaunchTakesRegistersAndImageFromInit := by
  unfold Obligations.LaunchTakesRegistersAndImageFromInit
  exact fun entry init params => ⟨rfl, rfl, rfl, rfl, rfl, rfl, rfl, fun r => by simp [State.getGpr, State.launch],
    fun z r => rfl, Memory.wf_ofCells _, fun a _ => Memory.read_ofCells _ a⟩

theorem admittedByte_wholeSpace (a : Word) : admittedByte wholeSpace a = true := by
  have := a.isLt
  simp [admittedByte, wholeSpace]
  omega

/-- Settles O12: reset is the launch of an empty image with the default parameters. -/
theorem resetState : Obligations.ResetState := by
  unfold Obligations.ResetState
  exact ⟨Memory.wf_ofCells [], rfl, rfl, fun a => Memory.read_ofCells [] a, rfl, admittedByte_wholeSpace, rfl, rfl, rfl, rfl,
    rfl, rfl⟩

/-! ### The hook (R298) -/

theorem State.interruptHook_of_platform {s : State} (h : s.params.irqHook = .platform) :
    s.interruptHook = s.afterHook (Config.irqHook s.snapshot) := by
  simp [State.interruptHook, h]

theorem State.afterHook_snapshot (s : State) : s.afterHook s.snapshot = s := if_pos rfl

theorem State.afterHook_of_ne {s : State} {r : Snapshot} (h : r ≠ s.snapshot) :
    s.afterHook r = { s with
      gpr := r.gpr, pc := r.pc, hi := r.hi, lo := r.lo, cop := r.cop, mem := Memory.ofCells r.mem
      pending := if s.pending.isSome then none else r.pending } := if_neg h

/-- Settles O60: where the hook returns the state it was given, nothing changes; where it acts, its state is taken over. -/
theorem interruptHookTakesThePlatformsState : Obligations.InterruptHookTakesThePlatformsState := by
  unfold Obligations.InterruptHookTakesThePlatformsState
  intro s h
  rw [State.interruptHook_of_platform h]
  generalize Config.irqHook s.snapshot = r
  by_cases hr : r = s.snapshot
  · subst hr
    rw [State.afterHook_snapshot]
    exact ⟨rfl, rfl, rfl, rfl, rfl, fun hInv => ⟨hInv, fun a _ => Memory.read_eq_find?_of_wf hInv a⟩,
      (if_neg fun hacts => hacts.1 rfl).symm, rfl, rfl⟩
  · rw [State.afterHook_of_ne hr]
    exact ⟨rfl, rfl, rfl, rfl, rfl, fun _ => ⟨Memory.wf_ofCells _, fun a _ => Memory.read_ofCells _ a⟩,
      by simp [hr], rfl, rfl⟩

end Sys2Proof.Machine
end
